-- ==== Sys2Proof/Word.lean ====
section
/-! DEFINITION. The word types of the machine (spec 00_scope.md R9, R11): every value is unsigned. -/

namespace Sys2Proof

/-- An 8-bit value: a V register, a timer, a memory cell, an immediate (R9, R20). -/
abbrev Byte := BitVec 8

/-- A 16-bit value: an opcode word, and the registers PC and I, which hold 12 significant bits (R9, R24, R28). -/
abbrev Word := BitVec 16

/-- A 12-bit address field `nnn`, and a stack entry (R29, R91). -/
abbrev Addr12 := BitVec 12

/-- Zero extension of a byte to 16 bits; it keeps the number (R11). -/
def Byte.toWord (b : Byte) : Word := b.setWidth 16

/-- Zero extension of a 12-bit address to 16 bits; it keeps the number (R11). -/
def Addr12.toWord (a : Addr12) : Word := a.setWidth 16

end Sys2Proof
end

