-- ==== Sys2Proof/Syntax.lean ====
section
/-! DEFINITION. The 34 instructions, one constructor per row of spec/opcode_table.json, in the table's order
(spec 30_encoding.md R95, R96, R101). -/

namespace Sys2Proof

/-- A V register index, 0x0..0xF (spec 10_state.md R20). -/
abbrev Reg := Fin 16

/-- VF, the flag register (R9 FLAG_REG, R21). -/
abbrev Reg.VF : Reg := 15

/-- V0, the implicit register of BNNN, FX55 and FX65 (R22). -/
abbrev Reg.V0 : Reg := 0

inductive Instr where
  | cls                                 -- 00E0
  | ret                                 -- 00EE
  | jp (nnn : Addr12)                   -- 1NNN
  | call (nnn : Addr12)                 -- 2NNN
  | seImm (x : Reg) (nn : Byte)         -- 3XNN
  | sneImm (x : Reg) (nn : Byte)        -- 4XNN
  | seReg (x y : Reg)                   -- 5XY0
  | ldImm (x : Reg) (nn : Byte)         -- 6XNN
  | addImm (x : Reg) (nn : Byte)        -- 7XNN
  | ldReg (x y : Reg)                   -- 8XY0
  | orReg (x y : Reg)                   -- 8XY1
  | andReg (x y : Reg)                  -- 8XY2
  | xorReg (x y : Reg)                  -- 8XY3
  | addReg (x y : Reg)                  -- 8XY4
  | sub (x y : Reg)                     -- 8XY5
  | shr (x y : Reg)                     -- 8XY6, y is kept and ignored (D9)
  | subn (x y : Reg)                    -- 8XY7
  | shl (x y : Reg)                     -- 8XYE, y is kept and ignored (D9)
  | sneReg (x y : Reg)                  -- 9XY0
  | ldI (nnn : Addr12)                  -- ANNN
  | jpV0 (nnn : Addr12)                 -- BNNN
  | rnd (x : Reg) (nn : Byte)           -- CXNN
  | drw (x y : Reg) (n : Nat)           -- DXYN, n the sprite's height in rows
  | skp (x : Reg)                       -- EX9E
  | sknp (x : Reg)                      -- EXA1
  | ldVxDt (x : Reg)                    -- FX07
  | ldVxK (x : Reg)                     -- FX0A
  | ldDtVx (x : Reg)                    -- FX15
  | ldStVx (x : Reg)                    -- FX18
  | addIVx (x : Reg)                    -- FX1E
  | ldFVx (x : Reg)                     -- FX29
  | ldBVx (x : Reg)                     -- FX33
  | ldMiVx (x : Reg)                    -- FX55
  | ldVxMi (x : Reg)                    -- FX65
  deriving DecidableEq, Repr

end Sys2Proof
end

