-- ==== Sys2Proof/WellFormed.lean ====
section
/-! DEFINITION. When an instruction term has an encoding. Register, byte and address operands carry their range in
their type; the one operand held as a plain count is the height of a sprite (log 14). -/

namespace Sys2Proof

/-- Every operand fits its field: `n` of DXYN is 0..15 (spec 30_encoding.md R91, R93); nothing else can fail. -/
def Instr.wellFormed : Instr → Bool
  | .drw _ _ n => n < 16
  | .cls | .ret | .jp _ | .call _ | .seImm _ _ | .sneImm _ _ | .seReg _ _ | .ldImm _ _ | .addImm _ _ | .ldReg _ _
  | .orReg _ _ | .andReg _ _ | .xorReg _ _ | .addReg _ _ | .sub _ _ | .shr _ _ | .subn _ _ | .shl _ _ | .sneReg _ _
  | .ldI _ | .jpV0 _ | .rnd _ _ | .skp _ | .sknp _ | .ldVxDt _ | .ldVxK _ | .ldDtVx _ | .ldStVx _ | .addIVx _
  | .ldFVx _ | .ldBVx _ | .ldMiVx _ | .ldVxMi _ => true

end Sys2Proof
end

