-- ==== Sys2Proof/Decode.lean ====
section
/-! DEFINITION. The decoder, total on every word and on every list of bytes (spec 30_encoding.md R90 to R99), and the
encoder, written from the same table (R101). -/

namespace Sys2Proof

/-- Why a word or a list of bytes is no instruction: the six spaces of R97, each by name, and a list too short to
hold a word. All six are `Unknown` to the machine (R95). -/
inductive DecodeError where
  | sysAddr       -- 0NNN except 00E0 and 00EE
  | seRegNibble   -- 5XYn, n not 0
  | aluSelector   -- 8XYn, n in 8, 9, A, B, C, D, F
  | sneRegNibble  -- 9XYn, n not 0
  | keySelector   -- EXnn, nn not 9E or A1
  | miscSelector  -- FXnn, nn none of the nine
  | truncated     -- fewer than two bytes
  deriving DecidableEq, Repr

/-! ### Fields (R91) -/

/-- `n1 = op[15:12]`, the primary selector. -/
def fieldN1 (op : Word) : BitVec 4 := op.extractLsb' 12 4

/-- `x = op[11:8]`, a register index. -/
def fieldX (op : Word) : Reg := (op.extractLsb' 8 4).toFin

/-- `y = op[7:4]`, a register index. -/
def fieldY (op : Word) : Reg := (op.extractLsb' 4 4).toFin

/-- `n = op[3:0]`. -/
def fieldN (op : Word) : BitVec 4 := op.extractLsb' 0 4

/-- `nn = op[7:0]`. -/
def fieldNN (op : Word) : Byte := op.extractLsb' 0 8

/-- `nnn = op[11:0]`. -/
def fieldNNN (op : Word) : Addr12 := op.extractLsb' 0 12

/-! ### Decode (R95) -/

/-- The 8XYk family by its low nibble. -/
def decodeAlu (x y : Reg) (n : BitVec 4) : Except DecodeError Instr :=
  match n.toNat with
  | 0x0 => .ok (.ldReg x y)
  | 0x1 => .ok (.orReg x y)
  | 0x2 => .ok (.andReg x y)
  | 0x3 => .ok (.xorReg x y)
  | 0x4 => .ok (.addReg x y)
  | 0x5 => .ok (.sub x y)
  | 0x6 => .ok (.shr x y)
  | 0x7 => .ok (.subn x y)
  | 0xE => .ok (.shl x y)
  | _ => .error .aluSelector

/-- The FXkk family by its low byte. -/
def decodeMisc (x : Reg) (nn : Byte) : Except DecodeError Instr :=
  match nn.toNat with
  | 0x07 => .ok (.ldVxDt x)
  | 0x0A => .ok (.ldVxK x)
  | 0x15 => .ok (.ldDtVx x)
  | 0x18 => .ok (.ldStVx x)
  | 0x1E => .ok (.addIVx x)
  | 0x29 => .ok (.ldFVx x)
  | 0x33 => .ok (.ldBVx x)
  | 0x55 => .ok (.ldMiVx x)
  | 0x65 => .ok (.ldVxMi x)
  | _ => .error .miscSelector

/-- `decode` of R95, total on all 65536 words. -/
def decode (op : Word) : Except DecodeError Instr :=
  match (fieldN1 op).toNat with
  | 0x0 =>
    if op = 0x00E0#16 then .ok .cls
    else if op = 0x00EE#16 then .ok .ret
    else .error .sysAddr
  | 0x1 => .ok (.jp (fieldNNN op))
  | 0x2 => .ok (.call (fieldNNN op))
  | 0x3 => .ok (.seImm (fieldX op) (fieldNN op))
  | 0x4 => .ok (.sneImm (fieldX op) (fieldNN op))
  | 0x5 => if fieldN op = 0#4 then .ok (.seReg (fieldX op) (fieldY op)) else .error .seRegNibble
  | 0x6 => .ok (.ldImm (fieldX op) (fieldNN op))
  | 0x7 => .ok (.addImm (fieldX op) (fieldNN op))
  | 0x8 => decodeAlu (fieldX op) (fieldY op) (fieldN op)
  | 0x9 => if fieldN op = 0#4 then .ok (.sneReg (fieldX op) (fieldY op)) else .error .sneRegNibble
  | 0xA => .ok (.ldI (fieldNNN op))
  | 0xB => .ok (.jpV0 (fieldNNN op))
  | 0xC => .ok (.rnd (fieldX op) (fieldNN op))
  | 0xD => .ok (.drw (fieldX op) (fieldY op) (fieldN op).toNat)
  | 0xE =>
    if fieldNN op = 0x9E#8 then .ok (.skp (fieldX op))
    else if fieldNN op = 0xA1#8 then .ok (.sknp (fieldX op))
    else .error .keySelector
  | _ => decodeMisc (fieldX op) (fieldNN op)   -- 0xF, the one value left of four bits

/-- Decoding from memory order: two bytes, the first the more significant (R62, R90), and the bytes that follow. -/
def decodeBytes : List Byte → Except DecodeError (Instr × List Byte)
  | hi :: lo :: rest =>
    match decode (hi ++ lo) with
    | .ok i => .ok (i, rest)
    | .error e => .error e
  | _ => .error .truncated

/-! ### Encode (R92, R101) -/

/-- Format FA: `hNNN`. -/
def encodeFA (h : BitVec 4) (nnn : Addr12) : Word := h ++ nnn

/-- Format FXK: `hXNN`; also format FX, whose low byte is fixed. -/
def encodeFXK (h : BitVec 4) (x : Reg) (nn : Byte) : Word := h ++ (BitVec.ofFin x : BitVec 4) ++ nn

/-- Format FXYN: `hXYN`; also format FXY, whose low nibble is fixed. -/
def encodeFXYN (h : BitVec 4) (x y : Reg) (n : BitVec 4) : Word :=
  h ++ (BitVec.ofFin x : BitVec 4) ++ (BitVec.ofFin y : BitVec 4) ++ n

/-- The word of a well-formed instruction. -/
def encode : Instr → Word
  | .cls => 0x00E0#16
  | .ret => 0x00EE#16
  | .jp nnn => encodeFA 0x1#4 nnn
  | .call nnn => encodeFA 0x2#4 nnn
  | .seImm x nn => encodeFXK 0x3#4 x nn
  | .sneImm x nn => encodeFXK 0x4#4 x nn
  | .seReg x y => encodeFXYN 0x5#4 x y 0x0#4
  | .ldImm x nn => encodeFXK 0x6#4 x nn
  | .addImm x nn => encodeFXK 0x7#4 x nn
  | .ldReg x y => encodeFXYN 0x8#4 x y 0x0#4
  | .orReg x y => encodeFXYN 0x8#4 x y 0x1#4
  | .andReg x y => encodeFXYN 0x8#4 x y 0x2#4
  | .xorReg x y => encodeFXYN 0x8#4 x y 0x3#4
  | .addReg x y => encodeFXYN 0x8#4 x y 0x4#4
  | .sub x y => encodeFXYN 0x8#4 x y 0x5#4
  | .shr x y => encodeFXYN 0x8#4 x y 0x6#4
  | .subn x y => encodeFXYN 0x8#4 x y 0x7#4
  | .shl x y => encodeFXYN 0x8#4 x y 0xE#4
  | .sneReg x y => encodeFXYN 0x9#4 x y 0x0#4
  | .ldI nnn => encodeFA 0xA#4 nnn
  | .jpV0 nnn => encodeFA 0xB#4 nnn
  | .rnd x nn => encodeFXK 0xC#4 x nn
  | .drw x y n => encodeFXYN 0xD#4 x y (BitVec.ofNat 4 n)
  | .skp x => encodeFXK 0xE#4 x 0x9E#8
  | .sknp x => encodeFXK 0xE#4 x 0xA1#8
  | .ldVxDt x => encodeFXK 0xF#4 x 0x07#8
  | .ldVxK x => encodeFXK 0xF#4 x 0x0A#8
  | .ldDtVx x => encodeFXK 0xF#4 x 0x15#8
  | .ldStVx x => encodeFXK 0xF#4 x 0x18#8
  | .addIVx x => encodeFXK 0xF#4 x 0x1E#8
  | .ldFVx x => encodeFXK 0xF#4 x 0x29#8
  | .ldBVx x => encodeFXK 0xF#4 x 0x33#8
  | .ldMiVx x => encodeFXK 0xF#4 x 0x55#8
  | .ldVxMi x => encodeFXK 0xF#4 x 0x65#8

/-- The bytes of a word as memory holds them, the more significant one first (R62). -/
def wordBytes (op : Word) : List Byte := [op.extractLsb' 8 8, op.extractLsb' 0 8]

/-! ### The host's view of the table -/

/-- The one word of an instruction whose bits, numbered as spec/opcode_table.json numbers them, are `w`; bits from
`nbits` up are 0. -/
def tableWord (nbits w : Nat) : Word := BitVec.ofNat 16 (w % 2 ^ nbits)

/-- The instruction the decoder reads from the bytes of `tableWord nbits w`. -/
def decodeTableWord (nbits w : Nat) : Option Instr :=
  match decodeBytes (wordBytes (tableWord nbits w)) with
  | .ok (i, _) => some i
  | .error _ => none

end Sys2Proof
end

