-- ==== Sys2Proof/Machine/Flags.lean ====
section
/-! DEFINITION. The flag computations: what an instruction writes into VF (spec 41_register_alu.md R150, R164). -/

namespace Sys2Proof.Machine

/-- A flag as VF holds it: 1 or 0. -/
def flagByte (f : Bool) : Byte := if f then 0x01#8 else 0x00#8

/-- Carry of `p + q`: 1 if the sum is above 255 (R150). -/
def carry (p q : Byte) : Bool := p.toNat + q.toNat > 255

/-- Not-borrow of `p - q`: 1 if `p >= q` (R150). -/
def notBorrow (p q : Byte) : Bool := p.toNat ≥ q.toNat

/-- The bit SHR shifts out: `p[0]` (R161). -/
def shiftOutRight (p : Byte) : Bool := p.getLsbD 0

/-- The bit SHL shifts out: `p[7]` (R163). -/
def shiftOutLeft (p : Byte) : Bool := p.getLsbD 7

end Sys2Proof.Machine
end

