-- ==== Sys2Proof/Config.lean ====
section
/-! DEFINITION. The fixed parameters of the block and the ones the spec leaves open (spec 00_scope.md R9, R10).
The default of `ODD_PC_FETCH` and of `FONT` stand in Machine/Defaults.lean. -/

namespace Sys2Proof.Config

/-- MEM_SIZE: 4096 cells, addresses 0x000..0xFFF (R9, R60). -/
abbrev memSize : Nat := 4096

/-- PROG_BASE: the load address and the first PC (R9, R282). -/
abbrev progBase : Nat := 0x200

/-- MAX_IMAGE: 4096 - 0x200 (R9, R281). -/
abbrev maxImage : Nat := 3584

/-- STACK_DEPTH (R9, R29). -/
abbrev stackDepth : Nat := 16

/-- DISP_W and DISP_H (R9, R33). -/
abbrev dispW : Nat := 64

abbrev dispH : Nat := 32

/-- FONT_BASE and FONT_GLYPH: 5 bytes a glyph from address 0 (R9, R65). -/
abbrev fontBase : Nat := 0x000

abbrev fontGlyph : Nat := 5

/-- ODD_PC_FETCH: what a Step does when PC is odd (R10, R63). -/
inductive OddPcFetch where
  | fault   -- raise MisalignedFetch before any byte is read
  | fetch   -- fetch at the odd address and go on
  deriving DecidableEq, Repr

/-- RAND: the byte CXNN draws, one fresh draw each (R10, R165, D16). FREE VALUE (log 3): no body, so nothing can be
proved of what it is; the n-th draw of a run is `randomByte n`. -/
opaque randomByte : Nat → Byte

end Sys2Proof.Config
end

