-- ==== Sys2Proof/Machine/Defaults.lean ====
section
/-! DEFINITION. The defaults the spec takes for the two parameters the source leaves open that a run depends on
(spec 00_scope.md R10): `ODD_PC_FETCH` and `FONT`. -/

namespace Sys2Proof.Machine

/-- The default of `ODD_PC_FETCH`: a Step at an odd PC faults (R63; the spec's decision D4; log 4). -/
def defaultOddPcFetch : Config.OddPcFetch := .fault

/-- FONT: 16 glyphs of 5 bytes (R9, R65). -/
abbrev Font := Vector Byte 80

/-- The default of `FONT`, the table of 20_memory.md R66: a glyph a line, its top row first.
PRESUMED by the spec from general knowledge (D22, G2; log 5). -/
def defaultFont : Font := #v[
  0xF0, 0x90, 0x90, 0x90, 0xF0,
  0x20, 0x60, 0x20, 0x20, 0x70,
  0xF0, 0x10, 0xF0, 0x80, 0xF0,
  0xF0, 0x10, 0xF0, 0x10, 0xF0,
  0x90, 0x90, 0xF0, 0x10, 0x10,
  0xF0, 0x80, 0xF0, 0x10, 0xF0,
  0xF0, 0x80, 0xF0, 0x90, 0xF0,
  0xF0, 0x10, 0x20, 0x40, 0x40,
  0xF0, 0x90, 0xF0, 0x90, 0xF0,
  0xF0, 0x90, 0xF0, 0x10, 0xF0,
  0xF0, 0x90, 0xF0, 0x90, 0x90,
  0xE0, 0x90, 0xE0, 0x90, 0xE0,
  0xF0, 0x80, 0x80, 0x80, 0xF0,
  0xE0, 0x90, 0x90, 0x90, 0xE0,
  0xF0, 0x80, 0xF0, 0x80, 0xF0,
  0xF0, 0x80, 0xF0, 0x80, 0x80]

end Sys2Proof.Machine
end

