-- ==== Sys2Proof/Machine/Memory.lean ====
section
/-! DEFINITION. The 4096-byte store MEM (spec 20_memory.md R60 to R71) as a list of cells in one canonical form, and
the two primitives MemRead and MemWrite (00_scope.md R13). -/

namespace Sys2Proof.Machine

/-- The cells whose byte is not the one an unlisted address reads as, by rising address. -/
abbrev Memory := List Host.Cell

namespace Memory

/-- What an unlisted address reads as: the reset contents with no image, that is the default font at 0x000..0x04F and
0x00 elsewhere (R65, R66, R67; the spec's decisions D21, D22; log 5, log 6). -/
def unlisted (a : Nat) : Byte :=
  if h : a < 80 then defaultFont[a] else 0x00#8

/-- The byte at an address. -/
def byteAt : Memory → Nat → Byte
  | [], a => unlisted a
  | (k, b) :: m, a => if a = k then b else byteAt m a

/-- The memory with one byte replaced; it keeps the canonical form, removing the entry where the byte is the unlisted
one (R70: only that cell changes). -/
def setByte : Memory → Nat → Byte → Memory
  | [], a, b => if b = unlisted a then [] else [(a, b)]
  | (k, c) :: m, a, b =>
    if a < k then
      if b = unlisted a then (k, c) :: m else (a, b) :: (k, c) :: m
    else if a = k then
      if b = unlisted a then m else (a, b) :: m
    else (k, c) :: setByte m a b

/-- Canonical from address `lo` on: addresses strictly rising, inside the space, no entry equal to the unlisted byte. -/
def wfFrom : Nat → Memory → Bool
  | _, [] => true
  | lo, (k, b) :: m => decide (lo ≤ k) && decide (k < Config.memSize) && b != unlisted k && wfFrom (k + 1) m

/-- The canonical form. -/
def wf (m : Memory) : Bool := wfFrom 0 m

/-- `MemRead(addr, 1)`: the byte, or the address where it is 4096 or above (R13, R64). -/
def memRead (m : Memory) (addr : Nat) : Except Nat Byte :=
  if addr < Config.memSize then .ok (byteAt m addr) else .error addr

/-- `MemWrite(addr, 1, v)`: the new memory, or the address where it is 4096 or above (R13, R64). -/
def memWrite (m : Memory) (addr : Nat) (v : Byte) : Except Nat Memory :=
  if addr < Config.memSize then .ok (setByte m addr v) else .error addr

/-- Bytes laid down one after the other from `base`, as Construct copies the font and the image
(70_reset_and_hazards.md R280). -/
def layBytes (m : Memory) (base : Nat) : List Byte → Memory
  | [] => m
  | b :: bs => layBytes (setByte m base b) (base + 1) bs

end Memory

end Sys2Proof.Machine
end

