-- ==== Sys2Proof/Machine/State.lean ====
section
/-! DEFINITION. The state of the block, its faults, and the state after reset (spec 10_state.md, 60_exceptions.md R241,
70_reset_and_hazards.md R280). -/

namespace Sys2Proof.Machine

/-- The six faults, each with the information R241 records. A Step that raises one goes on to a state whose FAULT
holds it; `Host.Outcome.fault` carries it when a faulted machine is stepped again (R247; log 1). -/
inductive Fault where
  /-- Code 1 (R242). Raised by Step when the fetched word decodes to Unknown. Safe. -/
  | unknownOpcode (opcode pc : Word)
  /-- Code 2 (R243). Raised by CALL when SP = 16. Safe. -/
  | stackOverflow (opcode pc : Word)
  /-- Code 3 (R244). Raised by RET when SP = 0. Safe. -/
  | stackUnderflow (opcode pc : Word)
  /-- Code 4 (R248). Raised by MemRead and MemWrite at an address of 4096 or above; no run reaches it. `opcode` is
  none when the fetch itself raises it (log 12). Safe. -/
  | addressOutOfRange (addr : Nat) (opcode : Option Word) (pc : Word)
  /-- Code 5 (R249). Returned by Construct for an image longer than 3584 bytes; no state then exists. Safe. -/
  | imageTooLarge (length : Nat)
  /-- Code 6 (R245). Raised by Step when PC is odd and ODD_PC_FETCH is fault (the spec's decision D4; log 4). Safe:
  the machine stops where the hardware may run. -/
  | misalignedFetch (pc : Word)
  deriving DecidableEq, Repr

/-- Why the model has no meaning for an instruction. No arm of `exec` gives it: every instruction is modelled. -/
inductive Refusal where
  /-- Raised by `exec` for an instruction without a meaning yet. Safe. -/
  | notModelled (mnemonic : String)
  deriving DecidableEq, Repr

/-- DISP: 32 rows of 64 one-bit cells; `d[y][x]` is the cell at column x, row y (R33). -/
abbrev Display := Vector (Vector Bool 64) 32

/-- KEY: 16 flags, true when pressed (R34). -/
abbrev Keys := Vector Bool 16

/-- Everything the spec gives the machine, and the model's own draw counter (last field; log 3). -/
structure State where
  v : Vector Byte 16             -- V0..VF (R20)
  pc : Word                      -- PC (R24)
  i : Word                       -- I (R28)
  sp : Fin 17                    -- SP, 0..16 (R30)
  stack : Vector Addr12 16       -- STACK[0..15] (R29)
  dt : Byte                      -- DT (R31)
  st : Byte                      -- ST (R32)
  disp : Display                 -- DISP (R33)
  key : Keys                     -- KEY (R34)
  opcode : Word                  -- OPCODE (R35)
  fault : Option Fault           -- FAULT (R36)
  mem : Memory                   -- MEM (R60)
  draws : Nat                    -- the model's own: CXNN draws so far (log 3)
  deriving DecidableEq, Repr

/-- The state after `Construct` of the empty image with the default font (R45, R280, R281; log 7). -/
def State.reset : State where
  v := Vector.replicate 16 0x00#8
  pc := 0x200#16
  i := 0x000#16
  sp := 0
  stack := Vector.replicate 16 0x000#12
  dt := 0x00#8
  st := 0x00#8
  disp := Vector.replicate 32 (Vector.replicate 64 false)
  key := Vector.replicate 16 false
  opcode := 0x0000#16
  fault := none
  mem := []
  draws := 0

/-- What one Step or one instruction answers. -/
abbrev Result := Host.Outcome State Fault Refusal

end Sys2Proof.Machine
end

