-- ==== Sys2Proof/Machine/Operands.lean ====
section
/-! DEFINITION. The operand forms: registers, the I-relative address, the key index, the font address, the BCD digits,
the sprite coordinates (spec 30_encoding.md R93, 42_index_memory.md R182, R183, R186). -/

namespace Sys2Proof.Machine

/-- `V[x]` (R12). -/
def State.reg (s : State) (x : Reg) : Byte := s.v[x]

/-- `KEY[k] == 1` (R12, R34). -/
def State.pressed (s : State) (k : Fin 16) : Bool := s.key[k]

/-- Reduction mod 4096: every write to PC and I goes through it (R24, R28; `v & 0xFFF` is the same number). -/
def wrap12 (w : Word) : Word := w % 4096#16

/-- Whether an address is odd: `a[0] == 1` (30_encoding.md R100). -/
def isOdd (a : Word) : Bool := a.toNat % 2 == 1

/-- The one data addressing mode, `EA = (I + k) mod 4096` (R186). -/
def effAddr (base : Word) (k : Nat) : Nat := (base.toNat + k) % Config.memSize

/-- The low nibble of a register as an index: a key (R220) or a font digit (R182). -/
def lowNibble (b : Byte) : Fin 16 := (b.extractLsb' 0 4).toFin

/-- `FONT_BASE + 5 * digit` (R182). -/
def glyphAddr (digit : Fin 16) : Word := BitVec.ofNat 16 (Config.fontBase + Config.fontGlyph * digit.val)

/-- Hundreds, tens and ones of a byte, in that order (R183). -/
def bcdDigits (b : Byte) : List Byte :=
  [BitVec.ofNat 8 (b.toNat / 100), BitVec.ofNat 8 (b.toNat / 10 % 10), BitVec.ofNat 8 (b.toNat % 10)]

/-- Column `c` of a sprite drawn at `px`, mod 64 (R201, R203). -/
def wrapX (px c : Nat) : Fin 64 := Fin.ofNat 64 (px + c)

/-- Row `r` of a sprite drawn at `py`, mod 32 (R201, R203). -/
def wrapY (py r : Nat) : Fin 32 := Fin.ofNat 32 (py + r)

/-- `V[0] .. V[x]`, in order (R22, R184). -/
def State.regsUpTo (s : State) (x : Reg) : List Byte := s.v.toList.take (x.val + 1)

end Sys2Proof.Machine
end

