-- ==== Sys2Proof/Machine/Ops.lean ====
section
/-! DEFINITION. The operations the instructions share: register and PC writes, the stack, block accesses to memory,
fetch, raising a fault, and the display's cells. -/

namespace Sys2Proof.Machine

/-! ### Registers -/

/-- `V[x] <- b` (spec 00_scope.md R12). -/
def State.setReg (s : State) (x : Reg) (b : Byte) : State := { s with v := s.v.set x b }

/-- `V[k] <- b` for the bytes of a list, from register `k` up (42_index_memory.md R185). -/
def loadRegs (v : Vector Byte 16) (k : Nat) : List Byte → Vector Byte 16
  | [] => v
  | b :: bs => loadRegs (v.setIfInBounds k b) (k + 1) bs

/-- `PC <- target`, reduced mod 4096 (10_state.md R24). -/
def State.setPc (s : State) (target : Word) : State := { s with pc := wrap12 target }

/-- `I <- w`, masked to 12 bits (R28). -/
def State.setI (s : State) (w : Word) : State := { s with i := wrap12 w }

/-- A skip: PC advances by an extra 2 when the condition holds (40_control_flow.md R125 to R128, R130). -/
def State.skipIf (s : State) (c : Bool) : State := if c then s.setPc (s.pc + 2) else s

/-- The address `a` of the instruction under execution: PC is already `a + 2` (R25, R120). -/
def State.instrAddr (s : State) : Word := wrap12 (s.pc - 2)

/-! ### Faults (60_exceptions.md) -/

/-- `raise`: the one way to take a fault. FAULT holds the record, PC is the faulting instruction's address `a`, and
nothing else of `s` changes, so `s` must be a state in which the Step has written nothing but OPCODE and the PC advance
(R14, R246). The machine has no handler and no return from a fault (R252, R253). The Step answers with a next state;
the host reads the fault there (log 1). -/
def raise (a : Word) (f : Fault) (s : State) : Result := .next { s with pc := a, fault := some f }

/-- The fault of a data access outside the address space (R64, R248). -/
def raiseAddress (addr : Nat) (s : State) : Result :=
  raise s.instrAddr (.addressOutOfRange addr (some s.opcode) s.instrAddr) s

/-- The numeric code of R241. -/
def Fault.code : Fault → Nat
  | .unknownOpcode _ _ => 1
  | .stackOverflow _ _ => 2
  | .stackUnderflow _ _ => 3
  | .addressOutOfRange _ _ _ => 4
  | .imageTooLarge _ => 5
  | .misalignedFetch _ => 6

/-- The name of R241. -/
def Fault.name : Fault → String
  | .unknownOpcode _ _ => "UnknownOpcode"
  | .stackOverflow _ _ => "StackOverflow"
  | .stackUnderflow _ _ => "StackUnderflow"
  | .addressOutOfRange _ _ _ => "AddressOutOfRange"
  | .imageTooLarge _ => "ImageTooLarge"
  | .misalignedFetch _ => "MisalignedFetch"

/-- The opcode the record of R241 holds, none where it records none. -/
def Fault.opcode : Fault → Option Word
  | .unknownOpcode op _ => some op
  | .stackOverflow op _ => some op
  | .stackUnderflow op _ => some op
  | .addressOutOfRange _ op _ => op
  | .imageTooLarge _ => none
  | .misalignedFetch _ => none

/-- The pc the record of R241 holds, none where it records none. -/
def Fault.pc : Fault → Option Word
  | .unknownOpcode _ pc => some pc
  | .stackOverflow _ pc => some pc
  | .stackUnderflow _ pc => some pc
  | .addressOutOfRange _ _ pc => some pc
  | .imageTooLarge _ => none
  | .misalignedFetch pc => some pc

/-! ### The stack (10_state.md R29, R30) -/

/-- Push: none when SP = 16; else `STACK[SP] <- w; SP <- SP + 1`. -/
def State.push (s : State) (w : Word) : Option State :=
  if h : s.sp.val < Config.stackDepth then
    some { s with stack := s.stack.set s.sp.val (w.setWidth 12), sp := ⟨s.sp.val + 1, Nat.succ_lt_succ h⟩ }
  else none

/-- Pop: none when SP = 0; else `SP <- SP - 1; STACK[SP]`. The popped entry keeps its value. -/
def State.pop (s : State) : Option (Word × State) :=
  if h : 0 < s.sp.val then
    some ((s.stack[s.sp.val - 1]'(by have := s.sp.isLt; omega)).toWord,
      { s with sp := ⟨s.sp.val - 1, by have := s.sp.isLt; omega⟩ })
  else none

/-! ### Memory blocks (20_memory.md R61, R69) -/

namespace Memory

/-- The bytes at `EA(k) .. EA(k + n - 1)` of `base`, each by MemRead; the first bad address where there is one. -/
def readBlock (m : Memory) (base : Word) (k : Nat) : Nat → Except Nat (List Byte)
  | 0 => .ok []
  | n + 1 =>
    match m.memRead (effAddr base k) with
    | .error a => .error a
    | .ok b =>
      match m.readBlock base (k + 1) n with
      | .error a => .error a
      | .ok bs => .ok (b :: bs)

/-- Bytes written one after the other at `EA(k), EA(k + 1), ..` of `base`, each by MemWrite. -/
def writeBlock (m : Memory) (base : Word) (k : Nat) : List Byte → Except Nat Memory
  | [] => .ok m
  | b :: bs =>
    match m.memWrite (effAddr base k) b with
    | .error a => .error a
    | .ok m' => writeBlock m' base (k + 1) bs

/-- `Fetch16(a) = MemRead(a, 1) ++ MemRead((a + 1) mod 4096, 1)` (R62). -/
def fetch16 (m : Memory) (a : Word) : Except Nat Word :=
  match m.memRead a.toNat with
  | .error e => .error e
  | .ok hi =>
    match m.memRead ((a.toNat + 1) % Config.memSize) with
    | .error e => .error e
    | .ok lo => .ok (hi ++ lo)

/-- A word stored where `fetch16 a` reads it. -/
def storeWord (m : Memory) (a : Word) (op : Word) : Memory :=
  (m.setByte a.toNat (op.extractLsb' 8 8)).setByte ((a.toNat + 1) % Config.memSize) (op.extractLsb' 0 8)

end Memory

/-! ### The display (10_state.md R33, 43_display.md R201) -/

namespace Display

/-- `DISP[cy][cx]`. -/
def cell (d : Display) (cx : Fin 64) (cy : Fin 32) : Bool := d[cy][cx]

/-- `DISP[cy][cx] <- DISP[cy][cx] ^ 1`. -/
def flip (d : Display) (cx : Fin 64) (cy : Fin 32) : Display := d.set cy (d[cy].set cx (!d[cy][cx]))

/-- All cells 0 (R200). -/
def blank : Display := Vector.replicate 32 (Vector.replicate 64 false)

/-- One set sprite bit on the cell `(cx, cy)`: the hit flag records a cell that was 1, then the cell is flipped. -/
def plot (a : Display × Bool) (cx : Fin 64) (cy : Fin 32) : Display × Bool :=
  (a.1.flip cx cy, a.2 || a.1.cell cx cy)

/-- Columns `c .. c + k - 1` of row `r`: bit `7 - c` of the row byte is column `px + c` (R202). -/
def drawCols (px py r : Nat) (b : Byte) (c : Nat) : Nat → Display × Bool → Display × Bool
  | 0, a => a
  | k + 1, a =>
    drawCols px py r b (c + 1) k (if b.getLsbD (7 - c) then plot a (wrapX px c) (wrapY py r) else a)

/-- The rows of a sprite, from row `r` down, 8 columns each. -/
def drawRows (px py r : Nat) : List Byte → Display × Bool → Display × Bool
  | [], a => a
  | b :: bs, a => drawRows px py (r + 1) bs (drawCols px py r b 0 8 a)

end Display

/-! ### Keys (44_input_timer.md R223) -/

/-- The lowest-numbered pressed key at or above `k`, among `n` keys from there. -/
def firstPressedFrom (key : Keys) (k : Nat) : Nat → Option Nat
  | 0 => none
  | n + 1 => if key[k]?.getD false then some k else firstPressedFrom key (k + 1) n

/-- `min { k | KEY[k] == 1 }`, none when no key is pressed (the spec's decision D14; log 13). -/
def firstPressed (key : Keys) : Option Nat := firstPressedFrom key 0 16

/-! ### Timers (60_exceptions.md R261) -/

/-- One count down with floor 0. -/
def countDown (t : Byte) : Byte := if t.toNat > 0 then t - 1 else t

end Sys2Proof.Machine
end

