-- ==== Sys2Proof/Machine/Alu.lean ====
section
/-! DEFINITION. Register loads, the ALU and the random draw (spec 41_register_alu.md R150 to R165). -/

namespace Sys2Proof.Machine

/-- A result without a flag: `V[x] <- r`. -/
def aluWrite (x : Reg) (r : Byte) (s : State) : Result := .next (s.setReg x r)

/-- A result with a flag: the operands are read already, `V[x]` is written, then VF (R151; D8). -/
def aluWriteFlag (x : Reg) (r : Byte) (f : Bool) (s : State) : Result :=
  .next ((s.setReg x r).setReg .VF (flagByte f))

/-- LD Vx, byte, `6XNN` (R153). -/
def execLdImm (x : Reg) (nn : Byte) (s : State) : Result := aluWrite x nn s

/-- ADD Vx, byte, `7XNN` (R154): no flag. -/
def execAddImm (x : Reg) (nn : Byte) (s : State) : Result := aluWrite x (s.reg x + nn) s

/-- LD Vx, Vy, `8XY0` (R155). -/
def execLdReg (x y : Reg) (s : State) : Result := aluWrite x (s.reg y) s

/-- OR Vx, Vy, `8XY1` (R156): VF is not reset (D10). -/
def execOr (x y : Reg) (s : State) : Result := aluWrite x (s.reg x ||| s.reg y) s

/-- AND Vx, Vy, `8XY2` (R157): VF is not reset (D10). -/
def execAnd (x y : Reg) (s : State) : Result := aluWrite x (s.reg x &&& s.reg y) s

/-- XOR Vx, Vy, `8XY3` (R158): VF is not reset (D10). -/
def execXor (x y : Reg) (s : State) : Result := aluWrite x (s.reg x ^^^ s.reg y) s

/-- ADD Vx, Vy, `8XY4` (R159). -/
def execAddReg (x y : Reg) (s : State) : Result :=
  aluWriteFlag x (s.reg x + s.reg y) (carry (s.reg x) (s.reg y)) s

/-- SUB Vx, Vy, `8XY5` (R160). -/
def execSub (x y : Reg) (s : State) : Result :=
  aluWriteFlag x (s.reg x - s.reg y) (notBorrow (s.reg x) (s.reg y)) s

/-- SHR Vx, `8XY6` (R161): shifts V[x], ignores y (D9). -/
def execShr (x _y : Reg) (s : State) : Result := aluWriteFlag x (s.reg x >>> 1) (shiftOutRight (s.reg x)) s

/-- SUBN Vx, Vy, `8XY7` (R162). -/
def execSubn (x y : Reg) (s : State) : Result :=
  aluWriteFlag x (s.reg y - s.reg x) (notBorrow (s.reg y) (s.reg x)) s

/-- SHL Vx, `8XYE` (R163): shifts V[x], ignores y (D9). -/
def execShl (x _y : Reg) (s : State) : Result := aluWriteFlag x (s.reg x <<< 1) (shiftOutLeft (s.reg x)) s

/-- RND with the byte `r` drawn (R165); the draw is counted (log 3). -/
def rndWith (r : Byte) (x : Reg) (nn : Byte) (s : State) : Result :=
  .next { s.setReg x (r &&& nn) with draws := s.draws + 1 }

/-- RND Vx, byte, `CXNN` (R165): `r` is the free value of this draw (log 3). -/
def execRnd (x : Reg) (nn : Byte) (s : State) : Result := rndWith (Config.randomByte s.draws) x nn s

end Sys2Proof.Machine
end

