-- ==== Sys2Proof/Machine/ControlFlow.lean ====
section
/-! DEFINITION. Control flow: return, jumps, call, skips (spec 40_control_flow.md R120 to R130). Every meaning of the
family files starts with PC already at the next instruction (R25, R120). -/

namespace Sys2Proof.Machine

/-- RET, `00EE` (R121). -/
def execRet (s : State) : Result :=
  match s.pop with
  | none => raise s.instrAddr (.stackUnderflow 0x00EE#16 s.instrAddr) s
  | some (target, s') => .next (s'.setPc target)

/-- JP addr, `1NNN` (R122). -/
def execJp (nnn : Addr12) (s : State) : Result := .next (s.setPc nnn.toWord)

/-- CALL addr, `2NNN` (R123): pushes the already advanced PC. -/
def execCall (nnn : Addr12) (s : State) : Result :=
  match s.push s.pc with
  | none => raise s.instrAddr (.stackOverflow s.opcode s.instrAddr) s
  | some s' => .next (s'.setPc nnn.toWord)

/-- SE Vx, byte, `3XNN` (R125). -/
def execSeImm (x : Reg) (nn : Byte) (s : State) : Result := .next (s.skipIf (s.reg x == nn))

/-- SNE Vx, byte, `4XNN` (R126). -/
def execSneImm (x : Reg) (nn : Byte) (s : State) : Result := .next (s.skipIf (s.reg x != nn))

/-- SE Vx, Vy, `5XY0` (R127). -/
def execSeReg (x y : Reg) (s : State) : Result := .next (s.skipIf (s.reg x == s.reg y))

/-- SNE Vx, Vy, `9XY0` (R128). -/
def execSneReg (x y : Reg) (s : State) : Result := .next (s.skipIf (s.reg x != s.reg y))

/-- JP V0, addr, `BNNN` (R129). -/
def execJpV0 (nnn : Addr12) (s : State) : Result := .next (s.setPc ((s.reg .V0).toWord + nnn.toWord))

end Sys2Proof.Machine
end

