-- ==== Sys2Proof/Machine/DisplayUnit.lean ====
section
/-! DEFINITION. Display clear and the sprite XOR-draw and collision unit (spec 43_display.md R200 to R204). -/

namespace Sys2Proof.Machine

/-- CLS, `00E0` (R200). -/
def execCls (s : State) : Result := .next { s with disp := Display.blank }

/-- DRW Vx, Vy, nibble, `DXYN` (R201): V[x], V[y], I and the sprite rows are read first, every pixel wraps, and VF is
written last with the collision (D13). -/
def execDrw (x y : Reg) (n : Nat) (s : State) : Result :=
  match s.mem.readBlock s.i 0 n with
  | .error a => raiseAddress a s
  | .ok rows =>
    let drawn := Display.drawRows (s.reg x).toNat (s.reg y).toNat 0 rows (s.disp, false)
    .next ({ s with disp := drawn.1 }.setReg .VF (flagByte drawn.2))

end Sys2Proof.Machine
end

