-- ==== Sys2Proof/Machine/IndexMemory.lean ====
section
/-! DEFINITION. The index register and the memory transfers (spec 42_index_memory.md R180 to R186). A transfer never
changes I, and one that met a bad address would raise and keep none of its writes (R14). -/

namespace Sys2Proof.Machine

/-- A block store at I (R186). -/
def storeAtI (bytes : List Byte) (s : State) : Result :=
  match s.mem.writeBlock s.i 0 bytes with
  | .error a => raiseAddress a s
  | .ok m => .next { s with mem := m }

/-- LD I, addr, `ANNN` (R180). -/
def execLdI (nnn : Addr12) (s : State) : Result := .next (s.setI nnn.toWord)

/-- ADD I, Vx, `FX1E` (R181): VF is not written (D12). -/
def execAddIVx (x : Reg) (s : State) : Result := .next (s.setI (s.i + (s.reg x).toWord))

/-- LD F, Vx, `FX29` (R182). -/
def execLdFVx (x : Reg) (s : State) : Result := .next (s.setI (glyphAddr (lowNibble (s.reg x))))

/-- LD B, Vx, `FX33` (R183). -/
def execLdBVx (x : Reg) (s : State) : Result := storeAtI (bcdDigits (s.reg x)) s

/-- LD [I], Vx, `FX55` (R184). -/
def execLdMiVx (x : Reg) (s : State) : Result := storeAtI (s.regsUpTo x) s

/-- LD Vx, [I], `FX65` (R185). -/
def execLdVxMi (x : Reg) (s : State) : Result :=
  match s.mem.readBlock s.i 0 (x.val + 1) with
  | .error a => raiseAddress a s
  | .ok bytes => .next { s with v := loadRegs s.v 0 bytes }

end Sys2Proof.Machine
end

