-- ==== Sys2Proof/Machine/InputTimer.lean ====
section
/-! DEFINITION. Key input and timer registers (spec 44_input_timer.md R220 to R225). -/

namespace Sys2Proof.Machine

/-- SKP Vx, `EX9E` (R220). -/
def execSkp (x : Reg) (s : State) : Result := .next (s.skipIf (s.pressed (lowNibble (s.reg x))))

/-- SKNP Vx, `EXA1` (R221). -/
def execSknp (x : Reg) (s : State) : Result := .next (s.skipIf (!s.pressed (lowNibble (s.reg x))))

/-- LD Vx, DT, `FX07` (R222). -/
def execLdVxDt (x : Reg) (s : State) : Result := .next (s.setReg x s.dt)

/-- LD Vx, K, `FX0A` (R223): with no key pressed PC goes back to this instruction (D14). -/
def execLdVxK (x : Reg) (s : State) : Result :=
  match firstPressed s.key with
  | some k => .next (s.setReg x (BitVec.ofNat 8 k))
  | none => .next (s.setPc (s.pc - 2))

/-- LD DT, Vx, `FX15` (R224). -/
def execLdDtVx (x : Reg) (s : State) : Result := .next { s with dt := s.reg x }

/-- LD ST, Vx, `FX18` (R225). -/
def execLdStVx (x : Reg) (s : State) : Result := .next { s with st := s.reg x }

end Sys2Proof.Machine
end

