-- ==== Sys2Proof/Machine/Cycle.lean ====
section
/-! DEFINITION. The instruction cycle, `Step` of spec 30_encoding.md R100, for either value of ODD_PC_FETCH. -/

namespace Sys2Proof.Machine

/-- The state in which the instruction is performed: OPCODE holds the fetched word (10_state.md R35) and PC the address
of the next instruction (R25). -/
def State.fetched (s : State) (op : Word) : State := { s with opcode := op }.setPc (s.pc + 2)

/-- R100, in its order: a faulted machine answers its fault and changes nothing (R247); an odd PC faults where
ODD_PC_FETCH says so (R245); the word at PC is fetched and latched; Unknown faults (R242); else PC advances and the
instruction is performed by `run`. A fault keeps PC at the instruction (R246). -/
def cycle (policy : Config.OddPcFetch) (run : Instr → State → Result) (s : State) : Result :=
  match s.fault with
  | some f => .fault f
  | none =>
    if isOdd s.pc && policy == .fault then raise s.pc (.misalignedFetch s.pc) s
    else
      match s.mem.fetch16 s.pc with
      | .error addr => raise s.pc (.addressOutOfRange addr none s.pc) s
      | .ok op =>
        match decode op with
        | .error _ => raise s.pc (.unknownOpcode op s.pc) { s with opcode := op }
        | .ok i => run i (s.fetched op)

/-- Step under a given ODD_PC_FETCH, CXNN drawing the free value (log 3). -/
def stepWith (policy : Config.OddPcFetch) (s : State) : Result := cycle policy exec s

/-- Performing an instruction in a Step whose random byte is `r`; only CXNN reads it (R100, R165). -/
def execDrawing (r : Byte) (i : Instr) (s : State) : Result :=
  match i with
  | .rnd x nn => rndWith r x nn s
  | i => exec i s

/-- `Step(r)` of R100 with the byte `r` that the host supplies (10_state.md R40). -/
def stepDrawing (policy : Config.OddPcFetch) (r : Byte) (s : State) : Result := cycle policy (execDrawing r) s

end Sys2Proof.Machine
end

