-- ==== Sys2Proof/Machine/Step.lean ====
section
/-! DEFINITION. One Step of the machine, and a word placed where the next Step fetches. -/

namespace Sys2Proof.Machine

/-- Step (spec 30_encoding.md R100) with the spec's default of ODD_PC_FETCH (log 4) and the free random draw (log 3). -/
def step (s : State) : Host.Outcome State Fault Refusal := stepWith defaultOddPcFetch s

/-- The state with the instruction word `w` at PC, most significant byte first (20_memory.md R62): it stands for the
load of a program by Construct (log 7). -/
def State.withFetchWord (s : State) (nbits w : Nat) : State :=
  { s with mem := s.mem.storeWord s.pc (tableWord nbits w) }

end Sys2Proof.Machine
end

