-- ==== Sys2Proof/Machine/HostOps.lean ====
section
/-! DEFINITION. The host's operations on the block (spec 10_state.md R40 to R43, 60_exceptions.md R256, R261,
70_reset_and_hazards.md R280): Construct, Step(r), Tick60, SetKeys, and the read-only observers. -/

namespace Sys2Proof.Machine

/-- `Construct(image, FONT)` (R280): the reset state with the font and the image in memory, or ImageTooLarge, with no
state (R249, R281). Cells in neither read 0x00 (R67). -/
def construct (image : List Byte) (font : Font) : Except Fault State :=
  if image.length > Config.maxImage then .error (.imageTooLarge image.length)
  else
    .ok { State.reset with
      mem := (Memory.layBytes [] Config.fontBase font.toList).layBytes Config.progBase image }

/-- `Tick60()` (R261): both timers count down with floor 0; nothing else is read or written, FAULT included. -/
def tick60 (s : State) : State := { s with dt := countDown s.dt, st := countDown s.st }

/-- `SetKeys(k)` (R34, R40). -/
def setKeys (k : Keys) (s : State) : State := { s with key := k }

/-- `sound_active`: the level ST != 0 (R43). -/
def soundActive (s : State) : Bool := s.st != 0

/-- The stop-sound edge between two states: the level falls from 1 to 0 (R43, R263; D19). -/
def stopSoundEdge (before after : State) : Bool := soundActive before && !soundActive after

/-- `ReadCell(x, y)` (R40). -/
def readCell (s : State) (x : Fin 64) (y : Fin 32) : Bool := s.disp.cell x y

/-- The diagnostics record of R42. -/
structure Snapshot where
  v : Vector Byte 16
  pc : Word
  i : Word
  sp : Fin 17
  opcode : Word
  dt : Byte
  st : Byte
  fault : Option Fault
  stack : List Addr12      -- STACK[0..SP-1]
  deriving DecidableEq, Repr

/-- `Snapshot()` (R42; FAULT and the live stack are the spec's addition, D1). -/
def snapshot (s : State) : Snapshot where
  v := s.v
  pc := s.pc
  i := s.i
  sp := s.sp
  opcode := s.opcode
  dt := s.dt
  st := s.st
  fault := s.fault
  stack := s.stack.toList.take s.sp.val

/-- What a Step returns to the host: none for Ok, else the fault record (R40, R240; log 1). -/
def stepReport : Result → Option Fault
  | .next t => t.fault
  | .fault f => some f
  | .refused _ => none

/-- The state after a Step: a faulted machine stays as it is (R247). -/
def stateAfter (s : State) : Result → State
  | .next t => t
  | .fault _ => s
  | .refused _ => s

/-- One host operation that changes the state of a running machine (R40, R41). -/
inductive HostOp where
  | step (r : Byte)
  | tick60
  | setKeys (k : Keys)
  deriving DecidableEq, Repr

/-- A host operation's effect; each is atomic (R256). -/
def applyOp (policy : Config.OddPcFetch) (s : State) : HostOp → State
  | .step r => stateAfter s (stepDrawing policy r s)
  | .tick60 => tick60 s
  | .setKeys k => setKeys k s

/-- A run: host operations in the order the host chooses, any interleaving admitted (R256, R297). -/
def runOps (policy : Config.OddPcFetch) (s : State) : List HostOp → State
  | [] => s
  | o :: os => runOps policy (applyOp policy s o) os

end Sys2Proof.Machine
end

