-- ==== Sys2Proof/Safety.lean ====
section
/-! DEFINITION. The terms claims are stated in: the invariant of every reachable state, what an instruction may read
and write, where it leaves PC, and what counts as a safe run. Each is written from the spec's tables, not from the
meanings. -/

namespace Sys2Proof.Machine

/-! ### Invariants -/

/-- What the fields' types do not already say of R46: PC and I hold 12 significant bits, and memory is in its canonical
form (spec 10_state.md R24, R28, R46; 20_memory.md R60). -/
abbrev State.Inv (s : State) : Prop :=
  s.pc.toNat < 4096 ∧ s.i.toNat < 4096 ∧ s.mem.wf = true

/-- FAULT and the rest of the state fit together as R241 to R246 say: the record holds the latched word and the address
PC is left at, and its condition holds. The two faults no Step reaches are never recorded (R248, R249). -/
def State.faultFits (s : State) : Bool :=
  match s.fault with
  | none => true
  | some (.unknownOpcode op pc) =>
    op == s.opcode && pc == s.pc && (match decode op with | .ok _ => false | .error _ => true)
  | some (.stackOverflow op pc) =>
    op == s.opcode && pc == s.pc && s.sp.val == 16 && op.toNat / 4096 == 2
  | some (.stackUnderflow op pc) =>
    op == 0x00EE#16 && op == s.opcode && pc == s.pc && s.sp.val == 0
  | some (.misalignedFetch pc) => pc == s.pc && pc.toNat % 2 == 1
  | some (.addressOutOfRange _ _ _) => false
  | some (.imageTooLarge _) => false

/-- A safe run ends with FAULT = None: a fault is never cleared (R36), so none was raised on the way. -/
abbrev SafeRun (policy : Config.OddPcFetch) (s : State) (ops : List HostOp) : Prop :=
  (runOps policy s ops).fault = none

/-! ### Frames -/

/-- Nothing but register `x` differs. -/
abbrev OnlyReg (x : Reg) (s t : State) : Prop :=
  (∀ r, r ≠ x → t.reg r = s.reg r) ∧ t = { s with v := t.v }

/-- Nothing but register `x` and VF differs. -/
abbrev OnlyRegAndVF (x : Reg) (s t : State) : Prop :=
  (∀ r, r ≠ x → r ≠ .VF → t.reg r = s.reg r) ∧ t = { s with v := t.v }

/-- An answer with its next state changed by `f`. -/
def mapNext (f : State → State) : Result → Result
  | .next t => .next (f t)
  | .fault r => .fault r
  | .refused r => .refused r

/-! ### The register table (10_state.md R23) -/

/-- The "reads" column of R23. -/
def readsReg : Instr → Reg → Bool
  | .seImm x _, r | .sneImm x _, r | .addImm x _, r | .shr x _, r | .shl x _, r => r == x
  | .seReg x y, r | .sneReg x y, r | .orReg x y, r | .andReg x y, r | .xorReg x y, r => r == x || r == y
  | .addReg x y, r | .sub x y, r | .subn x y, r | .drw x y _, r => r == x || r == y
  | .ldReg _ y, r => r == y
  | .jpV0 _, r => r == .V0
  | .skp x, r | .sknp x, r | .ldDtVx x, r | .ldStVx x, r | .addIVx x, r | .ldFVx x, r | .ldBVx x, r => r == x
  | .ldMiVx x, r => r ≤ x
  | .cls, _ | .ret, _ | .jp _, _ | .call _, _ | .ldImm _ _, _ | .ldI _, _ | .rnd _ _, _ => false
  | .ldVxDt _, _ | .ldVxK _, _ | .ldVxMi _, _ => false

/-- The "writes" column of R23. -/
def writesReg : Instr → Reg → Bool
  | .ldImm x _, r | .addImm x _, r | .ldReg x _, r | .orReg x _, r | .andReg x _, r | .xorReg x _, r => r == x
  | .addReg x _, r | .sub x _, r | .subn x _, r | .shr x _, r | .shl x _, r => r == x || r == .VF
  | .rnd x _, r | .ldVxDt x, r | .ldVxK x, r => r == x
  | .drw _ _ _, r => r == .VF
  | .ldVxMi x, r => r ≤ x
  | .cls, _ | .ret, _ | .jp _, _ | .call _, _ | .seImm _ _, _ | .sneImm _ _, _ | .seReg _ _, _ => false
  | .sneReg _ _, _ | .ldI _, _ | .jpV0 _, _ | .skp _, _ | .sknp _, _ | .ldDtVx _, _ | .ldStVx _, _ => false
  | .addIVx _, _ | .ldFVx _, _ | .ldBVx _, _ | .ldMiVx _, _ => false

/-! ### The PC table (10_state.md R26) -/

/-- Whether the condition of a skip holds (R125 to R128, R220, R221). -/
def skipTaken : Instr → State → Bool
  | .seImm x nn, s => s.reg x == nn
  | .sneImm x nn, s => s.reg x != nn
  | .seReg x y, s => s.reg x == s.reg y
  | .sneReg x y, s => s.reg x != s.reg y
  | .skp x, s => s.pressed (Fin.ofNat 16 (s.reg x).toNat)
  | .sknp x, s => !s.pressed (Fin.ofNat 16 (s.reg x).toNat)
  | _, _ => false

/-- Where a Step that does not fault leaves PC, for the instruction at address `a` in state `s` (R26). -/
def pcAfter (a : Nat) (s : State) (i : Instr) : Nat :=
  match i with
  | .jp nnn => nnn.toNat
  | .call nnn => nnn.toNat
  | .ret => (s.stack[s.sp.val - 1]?.getD 0).toNat
  | .jpV0 nnn => ((s.reg 0).toNat + nnn.toNat) % 4096
  | .ldVxK _ => if ∃ k : Fin 16, s.key[k] = true then (a + 2) % 4096 else a
  | i => if skipTaken i s then (a + 4) % 4096 else (a + 2) % 4096

/-! ### Sprites (43_display.md R201 to R203) -/

/-- Whether the sprite with these rows, drawn at `(px, py)`, has a set bit on the cell `(cx, cy)`: the cell's distance
from the start, each axis wrapping, picks the row and the bit, bit 7 leftmost. -/
def spritePixel (px py : Nat) (rows : List Byte) (cx : Fin 64) (cy : Fin 32) : Bool :=
  let c := (cx.val + 64 - px % 64) % 64
  let r := (cy.val + 32 - py % 32) % 32
  decide (c < 8) && (rows[r]?.getD 0).getLsbD (7 - c)

/-- The `n` bytes from I on, addresses wrapping (R61, R186). -/
def spriteRows (s : State) (n : Nat) : List Byte :=
  (List.range n).map fun k => s.mem.byteAt ((s.i.toNat + k) % 4096)

/-! ### Runs -/

/-- The instruction a Step of `s` performs, none where it faults before performing one. -/
def nextInstr (policy : Config.OddPcFetch) (s : State) : Option Instr :=
  if s.fault.isSome || (isOdd s.pc && policy == .fault) then none
  else
    match s.mem.fetch16 s.pc with
    | .error _ => none
    | .ok op =>
      match decode op with
      | .error _ => none
      | .ok i => some i

/-- No Step of the run performs an instruction of the given kind. -/
def runAvoids (policy : Config.OddPcFetch) (bad : Instr → Bool) (s : State) : List HostOp → Bool
  | [] => true
  | .step r :: os =>
    !((nextInstr policy s).any bad) && runAvoids policy bad (applyOp policy s (.step r)) os
  | .tick60 :: os => runAvoids policy bad (applyOp policy s .tick60) os
  | .setKeys k :: os => runAvoids policy bad (applyOp policy s (.setKeys k)) os

/-- How many Tick60 operations a run holds. -/
def tickCount : List HostOp → Nat
  | [] => 0
  | .tick60 :: os => tickCount os + 1
  | .step _ :: os => tickCount os
  | .setKeys _ :: os => tickCount os

/-- FX15. -/
def isLdDtVx : Instr → Bool
  | .ldDtVx _ => true
  | _ => false

/-- FX18. -/
def isLdStVx : Instr → Bool
  | .ldStVx _ => true
  | _ => false

end Sys2Proof.Machine
end

