-- ==== Sys2Proof/Certificates/Slice0/Obligations.lean ====
section
/-! DEFINITION. The statements for the provers, from the numbered rules of spec/. "The spec's decision D<n>" is an entry
of spec/92_eei_decisions.md: a choice of the spec, not of its source; a statement that rests on one says so. -/

open Sys2Proof Sys2Proof.Machine

/-! ### Encoding (30_encoding.md) -/

/-- One word or more of every family, written out from the table of R95, decodes to its instruction; A200, 6005, 610A,
8014 and FFFF are shown by the source (R93, R97), the other patterns are the spec's general knowledge (G1). -/
def Obligations.ShownWordsDecode : Prop :=
  decode 0xA200#16 = .ok (.ldI 0x200#12) ∧ decode 0x6005#16 = .ok (.ldImm 0 5#8) ∧
  decode 0x610A#16 = .ok (.ldImm 1 10#8) ∧ decode 0x8014#16 = .ok (.addReg 0 1) ∧
  decode 0xFFFF#16 = .error .miscSelector ∧ decode 0x00E0#16 = .ok .cls ∧ decode 0x00EE#16 = .ok .ret ∧
  decode 0x1ABC#16 = .ok (.jp 0xABC#12) ∧ decode 0x2ABC#16 = .ok (.call 0xABC#12) ∧
  decode 0xD125#16 = .ok (.drw 1 2 5) ∧ decode 0xE19E#16 = .ok (.skp 1) ∧ decode 0xF165#16 = .ok (.ldVxMi 1)

/-- R95, R101: decoding the word of any well-formed instruction gives the instruction back. -/
def Obligations.DecodeOfEncodeIsTheInstruction : Prop :=
  ∀ i : Instr, i.wellFormed = true → decode (encode i) = .ok i

/-- R95, R98: a word that decodes has one meaning and no bit of it is dropped: encoding the instruction gives the word
back, and the instruction is well-formed. -/
def Obligations.EncodeOfDecodeIsTheWord : Prop :=
  ∀ (op : Word) (i : Instr), decode op = .ok i → encode i = op ∧ i.wellFormed = true

/-- R97: the words that decode to Unknown are exactly those of its six rows (the 0NNN, 5XYn and 9XYn rows are the spec's
decision D17). -/
def Obligations.UnknownWordsAreTheSixSpaces : Prop :=
  ∀ op : Word,
    (∃ e, decode op = .error e) ↔
      (op.toNat < 0x1000 ∧ op.toNat ≠ 0x00E0 ∧ op.toNat ≠ 0x00EE) ∨
      (op.toNat / 0x1000 = 0x5 ∧ op.toNat % 16 ≠ 0) ∨
      (op.toNat / 0x1000 = 0x8 ∧ op.toNat % 16 ∈ [0x8, 0x9, 0xA, 0xB, 0xC, 0xD, 0xF]) ∨
      (op.toNat / 0x1000 = 0x9 ∧ op.toNat % 16 ≠ 0) ∨
      (op.toNat / 0x1000 = 0xE ∧ op.toNat % 256 ∉ [0x9E, 0xA1]) ∨
      (op.toNat / 0x1000 = 0xF ∧ op.toNat % 256 ∉ [0x07, 0x0A, 0x15, 0x18, 0x1E, 0x29, 0x33, 0x55, 0x65])

/-! ### The cycle and the faults (30_encoding.md R100, 60_exceptions.md) -/

/-- R62: the byte at the address is the more significant half of the word; the second address wraps (which the spec
derives, for 0xFFF alone). -/
def Obligations.FetchIsBigEndian : Prop :=
  ∀ (m : Memory) (a : Word), a.toNat < 4096 →
    ∃ op, m.fetch16 a = .ok op ∧
      op.toNat = 256 * (m.byteAt a.toNat).toNat + (m.byteAt ((a.toNat + 1) % 4096)).toNat

/-- R100: a Step runs the instruction its word decodes to, in the state with OPCODE latched and PC two further, mod 4096
(the spec's decision D2), for either value of ODD_PC_FETCH; `step` is the Step with its default, fault (D4). -/
def Obligations.StepPerformsTheDecodedInstruction : Prop :=
  (∀ (p : Config.OddPcFetch) (s : State) (op : Word) (i : Instr),
    s.fault = none → (s.pc.toNat % 2 = 0 ∨ p = .fetch) → s.mem.fetch16 s.pc = .ok op → decode op = .ok i →
      stepWith p s = exec i { s with opcode := op, pc := BitVec.ofNat 16 ((s.pc.toNat + 2) % 4096) }) ∧
  ∀ s : State, step s = stepWith .fault s

/-- R242, R246: a Step whose word is Unknown records it with its address, latches it, and changes nothing else (the
state after a fault is the spec's decision D5). -/
def Obligations.StepOnUnknownWordFaults : Prop :=
  ∀ (p : Config.OddPcFetch) (s : State) (op : Word) (e : DecodeError),
    s.fault = none → (s.pc.toNat % 2 = 0 ∨ p = .fetch) → s.mem.fetch16 s.pc = .ok op → decode op = .error e →
      stepWith p s = .next { s with opcode := op, fault := some (.unknownOpcode op s.pc) }

/-- R245: with ODD_PC_FETCH = fault a Step at an odd PC records MisalignedFetch and changes nothing else, OPCODE
included (the spec's decision D4). -/
def Obligations.StepAtOddPcFaults : Prop :=
  ∀ s : State, s.fault = none → s.pc.toNat % 2 = 1 →
    stepWith .fault s = .next { s with fault := some (.misalignedFetch s.pc) }

/-- R247: a Step of a faulted machine answers the recorded fault (the spec's decision D6). -/
def Obligations.FaultedStepAnswersItsFault : Prop :=
  ∀ (p : Config.OddPcFetch) (r : Byte) (s : State) (f : Fault), s.fault = some f →
    stepWith p s = .fault f ∧ stepDrawing p r s = .fault f

/-- R246: whatever fault a Step records, the state is as before it but for FAULT and OPCODE; OPCODE is unchanged for
MisalignedFetch and else holds the fetched word (the spec's decision D5). The premise `Inv` asks for canonical memory too,
the model's own form (log 6). -/
def Obligations.FaultsArePrecise : Prop :=
  ∀ (p : Config.OddPcFetch) (s t : State) (f : Fault),
    s.Inv → stepWith p s = .next t → t.fault = some f →
      t = { s with opcode := t.opcode, fault := some f } ∧
      if f = .misalignedFetch s.pc then t.opcode = s.opcode else s.mem.fetch16 s.pc = .ok t.opcode

/-- R241 to R246, R248: from a state in which FAULT fits the rest of the state, every host operation leads to one: the
record names the word in OPCODE, the address in PC, and a condition that holds (the spec's decisions D5, D7). The premise
`Inv` asks for canonical memory too, the model's own form (log 6). -/
def Obligations.EveryOperationKeepsTheFaultRecordFitting : Prop :=
  ∀ (p : Config.OddPcFetch) (s : State) (o : HostOp), s.Inv → s.faultFits = true → (applyOp p s o).faultFits = true

/-- R248: from a state that meets the invariant (PC and I below 4096, memory in the model's canonical form, log 6) no
Step reaches AddressOutOfRange; and the check is there (R64): both memory primitives answer the address where it is 4096
or above. That it stands in MemRead and MemWrite is the spec's decision D28. -/
def Obligations.AddressOutOfRangeIsCheckedAndNeverReached : Prop :=
  (∀ (p : Config.OddPcFetch) (s t : State), s.Inv → stepWith p s = .next t →
    ∀ a op pc, t.fault ≠ some (.addressOutOfRange a op pc)) ∧
  ∀ (m : Memory) (a : Nat) (b : Byte), 4096 ≤ a → m.memRead a = .error a ∧ m.memWrite a b = .error a

/-- The model's own (log 3): `stepWith` is Step(r) of R100 with the byte of the free value at the draw counter. -/
def Obligations.StepIsStepWithTheDrawnByte : Prop :=
  ∀ (p : Config.OddPcFetch) (s : State), stepWith p s = stepDrawing p (Config.randomByte s.draws) s

/-- R100: the random byte is read only by CXNN: a Step that performs no CXNN is the same for every byte. -/
def Obligations.OnlyRndReadsTheRandomByte : Prop :=
  ∀ (p : Config.OddPcFetch) (r r' : Byte) (s : State), (∀ x nn, nextInstr p s ≠ some (.rnd x nn)) →
    stepDrawing p r s = stepDrawing p r' s

/-! ### Reset and invariants (10_state.md, 70_reset_and_hazards.md) -/

/-- R45: the value of every register after reset (STACK, KEY, OPCODE, FAULT and the memory fill by the spec's decisions
D24, D15, D6, D21, D22); `draws = 0` is the model's (log 3). -/
def Obligations.ResetValues : Prop :=
  (∀ x, State.reset.reg x = 0) ∧ State.reset.pc = 0x200#16 ∧ State.reset.i = 0 ∧ State.reset.sp.val = 0 ∧
  (∀ k : Fin 16, State.reset.stack[k] = 0) ∧ State.reset.dt = 0 ∧ State.reset.st = 0 ∧
  (∀ cx cy, State.reset.disp.cell cx cy = false) ∧ (∀ k : Fin 16, State.reset.key[k] = false) ∧
  State.reset.opcode = 0 ∧ State.reset.fault = none ∧ State.reset.draws = 0 ∧
  ∀ a, State.reset.mem.byteAt a = if h : a < 80 then defaultFont[a] else 0

/-- R45, R46: the invariant holds at reset, and FAULT, which is none (the spec's decision D6), fits. That memory is in its
canonical form is the model's own part of the invariant (log 6), in neither rule. -/
def Obligations.ResetMeetsTheInvariant : Prop :=
  State.reset.Inv ∧ State.reset.faultFits = true

/-- R46: every Step keeps PC and I below 4096 and memory in its canonical form (which is the model's, log 6). -/
def Obligations.StepKeepsTheInvariant : Prop :=
  ∀ (p : Config.OddPcFetch) (s t : State), s.Inv → stepWith p s = .next t → t.Inv

/-- R46, R256: after Construct, whatever operations the host interleaves (the spec's decision D20), the invariant holds
and FAULT fits the state (the spec's decisions D5, D6, D7). That memory is in its canonical form is the model's own part
of the invariant (log 6). -/
def Obligations.EveryRunFromConstructMeetsTheInvariant : Prop :=
  ∀ (image : List Byte) (font : Font) (s : State) (p : Config.OddPcFetch) (ops : List HostOp),
    construct image font = .ok s → (runOps p s ops).Inv ∧ (runOps p s ops).faultFits = true

/-- R36, R247: once FAULT is set no run clears or changes it, and nothing but the timers and the keys changes (the
spec's decision D6). -/
def Obligations.FaultedMachineStaysFaulted : Prop :=
  ∀ (p : Config.OddPcFetch) (s : State) (f : Fault) (ops : List HostOp), s.fault = some f →
    let t := runOps p s ops
    t = { s with dt := t.dt, st := t.st, key := t.key }

/-! ### Whole-machine rules -/

/-- R265: a Step leaves DT and ST alone, but for FX15 and FX18, which load them. -/
def Obligations.StepNeverCountsTimersDown : Prop :=
  ∀ (p : Config.OddPcFetch) (s t : State), stepWith p s = .next t →
    (t.dt = s.dt ∨ ∃ x, nextInstr p s = some (.ldDtVx x) ∧ t.dt = s.reg x) ∧
    (t.st = s.st ∨ ∃ x, nextInstr p s = some (.ldStVx x) ∧ t.st = s.reg x)

/-- R33, R61: no instruction but CLS and DRW changes the display, none but FX33 and FX55 changes memory. -/
def Obligations.DisplayAndMemoryWriters : Prop :=
  ∀ (i : Instr) (s t : State), exec i s = .next t →
    (t.disp = s.disp ∨ i = .cls ∨ ∃ x y n, i = .drw x y n) ∧
    (t.mem = s.mem ∨ ∃ x, i = .ldBVx x ∨ i = .ldMiVx x)

/-- R28, R29, R34, R35: no instruction but ANNN, FX1E and FX29 changes I, none but CALL and RET changes the stack, and
none changes the keys or OPCODE. -/
def Obligations.IndexStackKeyAndOpcodeWriters : Prop :=
  ∀ (i : Instr) (s t : State), exec i s = .next t →
    (t.i = s.i ∨ (∃ nnn, i = .ldI nnn) ∨ ∃ x, i = .addIVx x ∨ i = .ldFVx x) ∧
    ((t.sp = s.sp ∧ t.stack = s.stack) ∨ i = .ret ∨ ∃ nnn, i = .call nnn) ∧
    t.key = s.key ∧ t.opcode = s.opcode

/-- R21, R23: an instruction changes no V register outside the "writes" column of R23; so VF changes as a side effect
of 8XY4, 8XY5, 8XY6, 8XY7, 8XYE and DXYN only. -/
def Obligations.RegistersWrittenAreTheTables : Prop :=
  ∀ (i : Instr) (s t : State) (r : Reg), exec i s = .next t → writesReg i r = false → t.reg r = s.reg r

/-- R23: a V register outside the "reads" column of R23 has no influence: whatever value it is given beforehand, the
answer is the same but for that register. SHR and SHL do not read V[y] (the spec's decision D9). -/
def Obligations.UnreadRegisterHasNoInfluence : Prop :=
  ∀ (i : Instr) (s : State) (r : Reg) (b : Byte), readsReg i r = false →
    mapNext (fun t => t.setReg r b) (exec i (s.setReg r b)) = mapNext (fun t => t.setReg r b) (exec i s)

/-- R26: where every instruction leaves PC, a faulting one included (a derived table, over the spec's decisions D2, D4
and D5). -/
def Obligations.PcAfterEveryStep : Prop :=
  ∀ (p : Config.OddPcFetch) (s t : State), s.pc.toNat < 4096 → stepWith p s = .next t →
    match t.fault, nextInstr p s with
    | none, some i => t.pc.toNat = pcAfter s.pc.toNat s i
    | none, none => False
    | some _, _ => t.pc = s.pc

/-! ### Control flow (40_control_flow.md) -/

/-- R129, with the effect of R122: `BNNN` sets PC to V0 plus its address mod 4096, JP to its address; nothing else
changes. The words of `BNNN` are stated too; the source shows them (R95). -/
def Obligations.JumpsSetPc : Prop :=
  ∀ (nnn : Addr12) (s : State),
    (∀ op : Word, decode op = .ok (.jpV0 nnn) ↔ op.toNat = 0xB000 + nnn.toNat) ∧
    exec (.jp nnn) s = .next { s with pc := BitVec.ofNat 16 nnn.toNat } ∧
    exec (.jpV0 nnn) s = .next { s with pc := BitVec.ofNat 16 (((s.reg 0).toNat + nnn.toNat) % 4096) }

/-- R123: with room on the stack CALL pushes PC, which is already the return address (the spec's decision D2), and
jumps; the other entries and all else stay. -/
def Obligations.CallPushesAndJumps : Prop :=
  ∀ (nnn : Addr12) (s : State) (h : s.sp.val < 16),
    ∃ t, exec (.call nnn) s = .next t ∧ t.pc.toNat = nnn.toNat ∧ t.sp.val = s.sp.val + 1 ∧
      (t.stack[s.sp.val]'h).toNat = s.pc.toNat % 4096 ∧
      (∀ k : Fin 16, k.val ≠ s.sp.val → t.stack[k] = s.stack[k]) ∧
      t = { s with pc := t.pc, sp := t.sp, stack := t.stack }

/-- R121: with an entry on the stack RET pops it into PC unchanged (the spec's decision D2); STACK and all else stay. -/
def Obligations.RetPopsIntoPc : Prop :=
  ∀ (s : State) (k : Fin 16), s.sp.val = k.val + 1 →
    ∃ t, exec .ret s = .next t ∧ t.pc.toNat = (s.stack[k]).toNat ∧ t.sp.val = k.val ∧
      t = { s with pc := t.pc, sp := t.sp }

/-- R243, R244: CALL with SP = 16 records StackOverflow, RET with SP = 0 StackUnderflow, each with the opcode and the
instruction's own address `a`, where PC is left; nothing else changes (the spec's decision D5). -/
def Obligations.StackBoundsFault : Prop :=
  ∀ (nnn : Addr12) (s : State) (a : Word), a.toNat < 4096 → s.pc.toNat = (a.toNat + 2) % 4096 →
    (s.sp.val = 16 → exec (.call nnn) s = .next { s with pc := a, fault := some (.stackOverflow s.opcode a) }) ∧
    (s.sp.val = 0 → exec .ret s = .next { s with pc := a, fault := some (.stackUnderflow 0x00EE#16 a) })

/-- R243, R244: CALL raises StackOverflow exactly when the stack holds 16 entries, RET StackUnderflow exactly when it is
empty; otherwise they raise nothing. That the fault is a next state with FAULT set is the model's choice (log 1); that SP
and STACK stay is R246, the spec's decision D5. -/
def Obligations.StackFaultsExactlyAtTheBounds : Prop :=
  ∀ (nnn : Addr12) (s : State), s.fault = none →
    (∃ t, exec (.call nnn) s = .next t ∧ ((∃ op a, t.fault = some (.stackOverflow op a)) ↔ s.sp.val = 16) ∧
      (s.sp.val = 16 → t.sp = s.sp ∧ t.stack = s.stack) ∧ (s.sp.val ≠ 16 → t.fault = none)) ∧
    ∃ t, exec .ret s = .next t ∧ ((∃ op a, t.fault = some (.stackUnderflow op a)) ↔ s.sp.val = 0) ∧
      (s.sp.val = 0 → t.sp = s.sp ∧ t.stack = s.stack) ∧ (s.sp.val ≠ 0 → t.fault = none)

/-- R121, R123: RET right after CALL goes on after the call, with the stack depth restored and nothing else changed but
the stale entry, the one at SP; every other entry keeps its value (the spec's decision D2). -/
def Obligations.RetAfterCallResumes : Prop :=
  ∀ (nnn : Addr12) (s : State), s.sp.val < 16 → s.pc.toNat < 4096 →
    ∃ t u, exec (.call nnn) s = .next t ∧ exec .ret t = .next u ∧ u = { s with stack := u.stack } ∧
      ∀ k : Fin 16, k.val ≠ s.sp.val → u.stack[k] = s.stack[k]

/-- R125 to R128, their effect: a skip advances PC by an extra 2, mod 4096, exactly when its comparison holds; nothing
else changes. -/
def Obligations.RegisterSkips : Prop :=
  ∀ (x y : Reg) (nn : Byte) (s : State),
    let skip := BitVec.ofNat 16 ((s.pc.toNat + 2) % 4096)
    exec (.seImm x nn) s = .next { s with pc := if s.reg x = nn then skip else s.pc } ∧
    exec (.sneImm x nn) s = .next { s with pc := if s.reg x ≠ nn then skip else s.pc } ∧
    exec (.seReg x y) s = .next { s with pc := if s.reg x = s.reg y then skip else s.pc } ∧
    exec (.sneReg x y) s = .next { s with pc := if s.reg x ≠ s.reg y then skip else s.pc }

/-- R220, R221: a key skip tests the key numbered by the low nibble of V[x]; nothing but PC changes. -/
def Obligations.KeySkips : Prop :=
  ∀ (x : Reg) (s : State) (k : Fin 16), k.val = (s.reg x).toNat % 16 →
    let skip := BitVec.ofNat 16 ((s.pc.toNat + 2) % 4096)
    exec (.skp x) s = .next { s with pc := if s.key[k] = true then skip else s.pc } ∧
    exec (.sknp x) s = .next { s with pc := if s.key[k] = false then skip else s.pc }

/-! ### Registers and ALU (41_register_alu.md) -/

/-- R153, with the effect of R154: `6XNN` loads its byte, 7XNN adds it mod 256 with no flag; nothing but V[x] changes.
The words of `6XNN` are stated too; the source shows them (R95). -/
def Obligations.ImmediateLoadAndAdd : Prop :=
  ∀ (x : Reg) (nn : Byte) (s : State),
    (∀ op : Word, decode op = .ok (.ldImm x nn) ↔ op.toNat = 0x6000 + 256 * x.val + nn.toNat) ∧
    (∃ t, exec (.ldImm x nn) s = .next t ∧ t.reg x = nn ∧ OnlyReg x s t) ∧
    ∃ t, exec (.addImm x nn) s = .next t ∧ (t.reg x).toNat = ((s.reg x).toNat + nn.toNat) % 256 ∧ OnlyReg x s t

/-- R155 to R158: copy, OR, AND and XOR bit by bit; nothing but V[x] changes, VF neither unless x is F (the spec's
decision D10; the copy is its general knowledge, G3). -/
def Obligations.CopyAndLogic : Prop :=
  ∀ (x y : Reg) (s : State),
    (∃ t, exec (.ldReg x y) s = .next t ∧ t.reg x = s.reg y ∧ OnlyReg x s t) ∧
    (∃ t, exec (.orReg x y) s = .next t ∧
      (∀ b, (t.reg x).getLsbD b = ((s.reg x).getLsbD b || (s.reg y).getLsbD b)) ∧ OnlyReg x s t) ∧
    (∃ t, exec (.andReg x y) s = .next t ∧
      (∀ b, (t.reg x).getLsbD b = ((s.reg x).getLsbD b && (s.reg y).getLsbD b)) ∧ OnlyReg x s t) ∧
    ∃ t, exec (.xorReg x y) s = .next t ∧
      (∀ b, (t.reg x).getLsbD b = ((s.reg x).getLsbD b ^^ (s.reg y).getLsbD b)) ∧ OnlyReg x s t

/-- R159, R160, R162: sum and difference mod 256 in V[x], carry or not-borrow in VF; with x = F the flag wins (the
spec's decision D8; SUBN is its general knowledge, G3). -/
def Obligations.AddSubAndSubnWithFlag : Prop :=
  ∀ (x y : Reg) (s : State),
    let p := (s.reg x).toNat
    let q := (s.reg y).toNat
    (∃ t, exec (.addReg x y) s = .next t ∧ (x ≠ .VF → (t.reg x).toNat = (p + q) % 256) ∧
      t.reg .VF = (if p + q > 255 then 1 else 0) ∧ OnlyRegAndVF x s t) ∧
    (∃ t, exec (.sub x y) s = .next t ∧ (x ≠ .VF → (t.reg x).toNat = (p + 256 - q) % 256) ∧
      t.reg .VF = (if p ≥ q then 1 else 0) ∧ OnlyRegAndVF x s t) ∧
    ∃ t, exec (.subn x y) s = .next t ∧ (x ≠ .VF → (t.reg x).toNat = (q + 256 - p) % 256) ∧
      t.reg .VF = (if q ≥ p then 1 else 0) ∧ OnlyRegAndVF x s t

/-- R161, R163: V[x] shifted by exactly one, the bit shifted out in VF, V[y] ignored; with x = F the flag wins (the
spec's decisions D8, D9). -/
def Obligations.ShiftsPutTheLostBitInVF : Prop :=
  ∀ (x y : Reg) (s : State),
    let p := (s.reg x).toNat
    (∃ t, exec (.shr x y) s = .next t ∧ (x ≠ .VF → (t.reg x).toNat = p / 2) ∧
      (t.reg .VF).toNat = p % 2 ∧ OnlyRegAndVF x s t) ∧
    ∃ t, exec (.shl x y) s = .next t ∧ (x ≠ .VF → (t.reg x).toNat = 2 * p % 256) ∧
      (t.reg .VF).toNat = p / 128 ∧ OnlyRegAndVF x s t

/-- R165: whatever byte `r` the Step is given, CXNN leaves `r` AND its mask in V[x]; `exec` draws the free value at
`draws`, which it counts up (the model's own, log 3; the free draw is the spec's decision D16). -/
def Obligations.RndMasksTheDrawnByte : Prop :=
  ∀ (x : Reg) (nn : Byte) (s : State),
    (∀ r : Byte, ∃ t, execDrawing r (.rnd x nn) s = .next t ∧
      (∀ b, (t.reg x).getLsbD b = (r.getLsbD b && nn.getLsbD b)) ∧ (∀ z, z ≠ x → t.reg z = s.reg z) ∧
      t = { s with v := t.v, draws := s.draws + 1 }) ∧
    ∃ t, exec (.rnd x nn) s = .next t ∧ t.reg x = Config.randomByte s.draws &&& nn ∧
      (∀ z, z ≠ x → t.reg z = s.reg z) ∧ t = { s with v := t.v, draws := s.draws + 1 }

/-! ### Index and memory (42_index_memory.md) -/

/-- R180, with the effect of R182: `ANNN` loads its address, FX29 the glyph address of the low nibble of V[x]; nothing
else changes. The words of `ANNN` are stated too; the source shows them (R95). -/
def Obligations.IndexLoads : Prop :=
  ∀ (nnn : Addr12) (x : Reg) (s : State),
    (∀ op : Word, decode op = .ok (.ldI nnn) ↔ op.toNat = 0xA000 + nnn.toNat) ∧
    exec (.ldI nnn) s = .next { s with i := BitVec.ofNat 16 nnn.toNat } ∧
    exec (.ldFVx x) s = .next { s with i := BitVec.ofNat 16 (5 * ((s.reg x).toNat % 16)) }

/-- R181: FX1E adds V[x] to I mod 4096 and changes nothing else, VF neither (the spec's decision D12). -/
def Obligations.AddToIndexWraps : Prop :=
  ∀ (x : Reg) (s : State),
    exec (.addIVx x) s = .next { s with i := BitVec.ofNat 16 ((s.i.toNat + (s.reg x).toNat) % 4096) }

/-- R183: FX33 stores hundreds, tens and ones at I, I + 1, I + 2 mod 4096; every other byte and all else stay. -/
def Obligations.BcdStore : Prop :=
  ∀ (x : Reg) (s : State), s.mem.wf = true →
    ∃ t, exec (.ldBVx x) s = .next t ∧
      (t.mem.byteAt (s.i.toNat % 4096)).toNat = (s.reg x).toNat / 100 ∧
      (t.mem.byteAt ((s.i.toNat + 1) % 4096)).toNat = (s.reg x).toNat / 10 % 10 ∧
      (t.mem.byteAt ((s.i.toNat + 2) % 4096)).toNat = (s.reg x).toNat % 10 ∧
      (∀ a, (∀ k < 3, a ≠ (s.i.toNat + k) % 4096) → t.mem.byteAt a = s.mem.byteAt a) ∧
      t = { s with mem := t.mem }

/-- R184: FX55 stores V[0] .. V[x] from I on, mod 4096; every other byte and all else stay, I too (the spec's decision
D11). -/
def Obligations.RegisterStore : Prop :=
  ∀ (x : Reg) (s : State), s.mem.wf = true →
    ∃ t, exec (.ldMiVx x) s = .next t ∧
      (∀ k : Reg, k ≤ x → t.mem.byteAt ((s.i.toNat + k.val) % 4096) = s.reg k) ∧
      (∀ a, (∀ k : Reg, k ≤ x → a ≠ (s.i.toNat + k.val) % 4096) → t.mem.byteAt a = s.mem.byteAt a) ∧
      t = { s with mem := t.mem }

/-- R185: FX65 loads V[0] .. V[x] from I on, mod 4096; the registers above x and all else stay, I too (the spec's
decision D11). -/
def Obligations.RegisterLoad : Prop :=
  ∀ (x : Reg) (s : State),
    ∃ t, exec (.ldVxMi x) s = .next t ∧
      (∀ k : Reg, k ≤ x → t.reg k = s.mem.byteAt ((s.i.toNat + k.val) % 4096)) ∧
      (∀ k : Reg, x < k → t.reg k = s.reg k) ∧ t = { s with v := t.v }

/-- R184, R185: FX65 right after FX55 loads back what was stored, so it changes nothing (the spec's decision D11). -/
def Obligations.LoadAfterStoreChangesNothing : Prop :=
  ∀ (x : Reg) (s : State), s.mem.wf = true →
    ∃ t, exec (.ldMiVx x) s = .next t ∧ exec (.ldVxMi x) t = .next t

/-- R62, R75: the first two bytes FX55 stores are fetched as one word, V[0] its more significant half. -/
def Obligations.StoredBytesAreFetchedBigEndian : Prop :=
  ∀ (x : Reg) (s : State), s.mem.wf = true → 1 ≤ x.val →
    ∃ t, exec (.ldMiVx x) s = .next t ∧
      t.mem.fetch16 (BitVec.ofNat 16 (s.i.toNat % 4096)) = .ok (s.reg 0 ++ s.reg 1)

/-! ### Display (43_display.md) -/

/-- R200: CLS clears every cell and changes nothing else. -/
def Obligations.ClearDisplay : Prop :=
  ∀ s : State, ∃ t, exec .cls s = .next t ∧ (∀ cx cy, t.disp.cell cx cy = false) ∧ t = { s with disp := t.disp }

/-- R201, R203: DRW flips exactly the cells under a set sprite bit, both axes wrapping, and VF says whether one of them
was set; nothing else changes. Bit 7 leftmost, operands read before VF is written, and n = 0 drawing nothing are the
spec's decision D13. -/
def Obligations.DrawXorsTheSprite : Prop :=
  ∀ (x y : Reg) (n : Nat) (s : State), n < 16 →
    let on := spritePixel (s.reg x).toNat (s.reg y).toNat (spriteRows s n)
    ∃ t, exec (.drw x y n) s = .next t ∧
      (∀ cx cy, t.disp.cell cx cy = (s.disp.cell cx cy ^^ on cx cy)) ∧
      t.reg .VF = (if ∃ cx cy, on cx cy = true ∧ s.disp.cell cx cy = true then 1 else 0) ∧
      (∀ r, r ≠ .VF → t.reg r = s.reg r) ∧ t = { s with v := t.v, disp := t.disp }

/-- R204: drawing again, with V[x] and V[y] as they were for the first draw, restores the display. By R201 the second
draw collides exactly on the sprite's cells that were clear before the first; so where the first draw met no set cell,
it reports a collision exactly when some row of the sprite has a set bit. (R204's derived last clause says that of every
display; R201 contradicts it where the first draw erased all it touched, and the model follows R201: log 11.) -/
def Obligations.DrawTwiceRestoresTheDisplay : Prop :=
  ∀ (x y : Reg) (n : Nat) (s t : State), n < 16 → exec (.drw x y n) s = .next t →
    t.reg x = s.reg x → t.reg y = s.reg y →
      let on := spritePixel (s.reg x).toNat (s.reg y).toNat (spriteRows s n)
      ∃ u, exec (.drw x y n) t = .next u ∧ u.disp = s.disp ∧
        u.reg .VF = (if ∃ cx cy, on cx cy = true ∧ s.disp.cell cx cy = false then 1 else 0) ∧
        (t.reg .VF = 0 → (u.reg .VF = 1 ↔ ∃ b ∈ spriteRows s n, b ≠ 0))

/-! ### Input and timers (44_input_timer.md) -/

/-- R222, R224, R225: FX07 reads DT, FX15 and FX18 set DT and ST from V[x]; nothing else changes. -/
def Obligations.TimerTransfers : Prop :=
  ∀ (x : Reg) (s : State),
    (∃ t, exec (.ldVxDt x) s = .next t ∧ t.reg x = s.dt ∧ OnlyReg x s t) ∧
    exec (.ldDtVx x) s = .next { s with dt := s.reg x } ∧
    exec (.ldStVx x) s = .next { s with st := s.reg x }

/-- R223: with a key pressed FX0A loads the number of the lowest one; with none it puts PC back by 2 mod 4096; nothing
else changes (lowest key and pressed level are the spec's decision D14). -/
def Obligations.KeyWait : Prop :=
  ∀ (x : Reg) (s : State),
    (∀ k : Fin 16, s.key[k] = true → (∀ j : Fin 16, j < k → s.key[j] = false) →
      ∃ t, exec (.ldVxK x) s = .next t ∧ (t.reg x).toNat = k.val ∧ OnlyReg x s t) ∧
    ((∀ k : Fin 16, s.key[k] = false) →
      exec (.ldVxK x) s = .next { s with pc := BitVec.ofNat 16 ((s.pc.toNat + 4094) % 4096) })

/-- R122, R223: a Step of a jump to itself, or of FX0A with no key pressed, changes nothing but OPCODE, which holds the
same word again (the wait is the spec's decision D14). -/
def Obligations.SelfJumpAndKeyWaitStandStill : Prop :=
  ∀ (p : Config.OddPcFetch) (s : State) (op : Word) (i : Instr),
    s.fault = none → s.pc.toNat < 4096 → (s.pc.toNat % 2 = 0 ∨ p = .fetch) →
    s.mem.fetch16 s.pc = .ok op → decode op = .ok i →
    ((∃ nnn, i = .jp nnn ∧ nnn.toNat = s.pc.toNat) ∨ ((∃ x, i = .ldVxK x) ∧ ∀ k : Fin 16, s.key[k] = false)) →
      stepWith p s = .next { s with opcode := op }

/-! ### Host operations (10_state.md R40, 60_exceptions.md, 70_reset_and_hazards.md) -/

/-- R261: Tick60 takes 1 from each timer with floor 0 and changes nothing else, FAULT included (one operation for both
is the spec's decision D18). -/
def Obligations.Tick60CountsBothTimersDown : Prop :=
  ∀ s : State, (tick60 s).dt.toNat = s.dt.toNat - 1 ∧ (tick60 s).st.toNat = s.st.toNat - 1 ∧
    tick60 s = { s with dt := (tick60 s).dt, st := (tick60 s).st }

/-- R262: over any interleaving of Steps, ticks and key updates in which no Step loads the timer, the timer falls by the
number of ticks, with floor 0, however many instructions run. -/
def Obligations.TimersFallWithTicksAlone : Prop :=
  ∀ (p : Config.OddPcFetch) (s : State) (ops : List HostOp),
    (runAvoids p isLdDtVx s ops = true → (runOps p s ops).dt.toNat = s.dt.toNat - tickCount ops) ∧
    (runAvoids p isLdStVx s ops = true → (runOps p s ops).st.toNat = s.st.toNat - tickCount ops)

/-- R256, R293: a tick may come before or after any instruction but FX07, FX15 and FX18, which read or write a timer, a
key update before or after any but EX9E, EXA1 and FX0A, which read the keys, with the same result. -/
def Obligations.TicksAndKeysCommuteWithOtherInstructions : Prop :=
  ∀ (i : Instr) (s : State) (k : Keys),
    ((∀ x, i ≠ .ldVxDt x ∧ i ≠ .ldDtVx x ∧ i ≠ .ldStVx x) → exec i (tick60 s) = mapNext tick60 (exec i s)) ∧
    ((∀ x, i ≠ .skp x ∧ i ≠ .sknp x ∧ i ≠ .ldVxK x) → exec i (setKeys k s) = mapNext (setKeys k) (exec i s))

/-- R67, R280: Construct puts the font at 0x000, the image at 0x200, 0x00 in every other cell (the spec's decision D21)
and everything else at its reset value. -/
def Obligations.ConstructLoadsFontAndImage : Prop :=
  ∀ (image : List Byte) (font : Font), image.length ≤ 3584 →
    ∃ s, construct image font = .ok s ∧
      (∀ (k : Nat) (h : k < 80), s.mem.byteAt k = font[k]) ∧
      (∀ (k : Nat) (h : k < image.length), s.mem.byteAt (0x200 + k) = image[k]) ∧
      (∀ a, 80 ≤ a → (a < 0x200 ∨ 0x200 + image.length ≤ a) → s.mem.byteAt a = 0) ∧
      s = { State.reset with mem := s.mem }

/-- R249: ImageTooLarge is the only fault of Construct, given exactly for an image longer than 3584 bytes, with its
length, and then there is no state. -/
def Obligations.ConstructRejectsOnlyLargeImages : Prop :=
  ∀ (image : List Byte) (font : Font) (f : Fault),
    construct image font = .error f ↔ image.length > 4096 - 0x200 ∧ f = .imageTooLarge image.length

/-- R281: the reset state is Construct of the empty image with the default font (the model's choice, log 7), and its
first Step meets 0x0000 at 0x200 (the spec's decisions D29, D22). -/
def Obligations.ResetIsTheEmptyConstruct : Prop :=
  construct [] defaultFont = .ok State.reset ∧
  step State.reset = .next { State.reset with fault := some (.unknownOpcode 0x0000#16 0x200#16) }

/-- R43: sound_active is ST != 0; a tick stops the sound exactly when ST is 1, FX18 exactly when it loads 0 over a
nonzero ST (the spec's decision D19). -/
def Obligations.SoundLevelAndStopEdge : Prop :=
  ∀ s : State, (soundActive s = true ↔ s.st.toNat ≠ 0) ∧ (stopSoundEdge s (tick60 s) = true ↔ s.st.toNat = 1) ∧
    ∀ (x : Reg) (t : State), exec (.ldStVx x) s = .next t →
      (stopSoundEdge s t = true ↔ s.st.toNat ≠ 0 ∧ (s.reg x).toNat = 0)

/-- The model's own (log 7; canonical memory in `Inv`: log 6): the word `withFetchWord` places is the one the next Step
fetches, and no other byte changes. -/
def Obligations.PlacedWordIsFetched : Prop :=
  ∀ (s : State) (w : Nat), s.Inv → w < 65536 →
    let t := s.withFetchWord 16 w
    t.mem.fetch16 t.pc = .ok (BitVec.ofNat 16 w) ∧ t = { s with mem := t.mem } ∧
    ∀ a, a ≠ s.pc.toNat → a ≠ (s.pc.toNat + 1) % 4096 → t.mem.byteAt a = s.mem.byteAt a

/-- R34, R40, R42: SetKeys leaves KEY at the 16 flags it is given and changes nothing else, in a faulted state too (all 16
at once is the spec's decision D15). ReadCell shows the cell; Snapshot shows the registers as they are, with FAULT and the
live stack STACK[0..SP-1] (the spec's addition, D1). The observers answer a value and no state (R41). -/
def Obligations.SetKeysWritesAndObserversRead : Prop :=
  ∀ (p : Config.OddPcFetch) (s : State) (k : Keys),
    (applyOp p s (.setKeys k) = setKeys k s ∧ setKeys k s = { s with key := (setKeys k s).key } ∧
      ∀ j : Fin 16, (setKeys k s).pressed j = k[j]) ∧
    (∀ cx cy, readCell s cx cy = s.disp[cy][cx]) ∧
    let n := snapshot s
    (∀ x : Reg, n.v[x] = s.reg x) ∧ n.pc = s.pc ∧ n.i = s.i ∧ n.sp = s.sp ∧ n.opcode = s.opcode ∧ n.dt = s.dt ∧
      n.st = s.st ∧ n.fault = s.fault ∧ n.stack.length = s.sp.val ∧
      ∀ j : Fin 16, j.val < s.sp.val → n.stack[j.val]? = some s.stack[j]
end

