-- ==== Sys2Proof/Laws/Decode.lean ====
section
/-! SUPPORT. The fields of an assembled word, and a word put together from its fields. -/

namespace Sys2Proof

section Fields

variable (h : BitVec 4) (x y : Reg) (n : BitVec 4) (nn : Byte) (nnn : Addr12)

theorem encodeFA_toNat : (encodeFA h nnn).toNat = h.toNat * 4096 + nnn.toNat := by
  have := nnn.isLt
  rw [encodeFA, BitVec.toNat_append, Nat.shiftLeft_eq, Nat.mul_comm, ← Nat.two_pow_add_eq_or_of_lt this, Nat.mul_comm]

theorem encodeFXK_toNat : (encodeFXK h x nn).toNat = h.toNat * 4096 + x.val * 256 + nn.toNat := by
  have h1 := nn.isLt
  have h2 : (BitVec.ofFin x : BitVec 4).toNat < 2 ^ 4 := (BitVec.ofFin x : BitVec 4).isLt
  rw [encodeFXK, BitVec.toNat_append, BitVec.toNat_append, Nat.shiftLeft_eq, Nat.shiftLeft_eq, Nat.mul_comm _ (2 ^ 8),
    ← Nat.two_pow_add_eq_or_of_lt h1, Nat.mul_comm _ (2 ^ 4), ← Nat.two_pow_add_eq_or_of_lt h2]
  have h3 : (BitVec.ofFin x : BitVec 4).toNat = x.val := rfl
  omega

theorem encodeFXYN_toNat : (encodeFXYN h x y n).toNat = h.toNat * 4096 + x.val * 256 + y.val * 16 + n.toNat := by
  have h1 := n.isLt
  have h2 : (BitVec.ofFin x : BitVec 4).toNat < 2 ^ 4 := (BitVec.ofFin x : BitVec 4).isLt
  have h3 : (BitVec.ofFin y : BitVec 4).toNat < 2 ^ 4 := (BitVec.ofFin y : BitVec 4).isLt
  rw [encodeFXYN, BitVec.toNat_append, BitVec.toNat_append, BitVec.toNat_append, Nat.shiftLeft_eq, Nat.shiftLeft_eq,
    Nat.shiftLeft_eq, Nat.mul_comm _ (2 ^ 4), ← Nat.two_pow_add_eq_or_of_lt h1, Nat.mul_comm _ (2 ^ 4),
    ← Nat.two_pow_add_eq_or_of_lt h3, Nat.mul_comm _ (2 ^ 4), ← Nat.two_pow_add_eq_or_of_lt h2]
  have h4 : (BitVec.ofFin x : BitVec 4).toNat = x.val := rfl
  have h5 : (BitVec.ofFin y : BitVec 4).toNat = y.val := rfl
  omega

end Fields

section Words

variable (op : Word)

theorem fieldN1_toNat : (fieldN1 op).toNat = op.toNat / 4096 := by
  have := op.isLt
  simp only [fieldN1, BitVec.extractLsb'_toNat, Nat.shiftRight_eq_div_pow]
  omega

theorem fieldX_val : (fieldX op).val = op.toNat / 256 % 16 := by
  simp [fieldX, Nat.shiftRight_eq_div_pow]

theorem fieldY_val : (fieldY op).val = op.toNat / 16 % 16 := by
  simp [fieldY, Nat.shiftRight_eq_div_pow]

theorem fieldN_toNat : (fieldN op).toNat = op.toNat % 16 := by
  simp [fieldN]

theorem fieldNN_toNat : (fieldNN op).toNat = op.toNat % 256 := by
  simp [fieldNN]

theorem fieldNNN_toNat : (fieldNNN op).toNat = op.toNat % 4096 := by
  simp [fieldNNN]

/-- The two bytes of a word, put together again, are the word. -/
theorem word_of_bytes : (op.extractLsb' 8 8 ++ op.extractLsb' 0 8 : Word) = op := by
  apply BitVec.eq_of_toNat_eq
  have h := (op.extractLsb' 0 8).isLt
  have := op.isLt
  rw [BitVec.toNat_append, Nat.shiftLeft_eq, Nat.mul_comm, ← Nat.two_pow_add_eq_or_of_lt h]
  simp only [BitVec.extractLsb'_toNat, Nat.shiftRight_eq_div_pow]
  omega

/-- Decoding the bytes of a word in memory order is decoding the word. -/
theorem decodeBytes_wordBytes (rest : List Byte) :
    decodeBytes (wordBytes op ++ rest) =
      match decode op with
      | .ok i => .ok (i, rest)
      | .error e => .error e := by
  cases h : decode op <;> simp only [wordBytes, List.cons_append, List.nil_append, decodeBytes, word_of_bytes, h]

end Words

end Sys2Proof
end

