-- ==== Sys2Proof/Laws/State.lean ====
section
/-! SUPPORT. What each update of State leaves in each field, so that no later proof unfolds a record update. -/

namespace Sys2Proof.Machine.State

@[simp] theorem setReg_pc (s : State) (x : Reg) (b : Byte) : (s.setReg x b).pc = s.pc := rfl

@[simp] theorem setReg_i (s : State) (x : Reg) (b : Byte) : (s.setReg x b).i = s.i := rfl

@[simp] theorem setReg_sp (s : State) (x : Reg) (b : Byte) : (s.setReg x b).sp = s.sp := rfl

@[simp] theorem setReg_stack (s : State) (x : Reg) (b : Byte) : (s.setReg x b).stack = s.stack := rfl

@[simp] theorem setReg_dt (s : State) (x : Reg) (b : Byte) : (s.setReg x b).dt = s.dt := rfl

@[simp] theorem setReg_st (s : State) (x : Reg) (b : Byte) : (s.setReg x b).st = s.st := rfl

@[simp] theorem setReg_disp (s : State) (x : Reg) (b : Byte) : (s.setReg x b).disp = s.disp := rfl

@[simp] theorem setReg_key (s : State) (x : Reg) (b : Byte) : (s.setReg x b).key = s.key := rfl

@[simp] theorem setReg_opcode (s : State) (x : Reg) (b : Byte) : (s.setReg x b).opcode = s.opcode := rfl

@[simp] theorem setReg_fault (s : State) (x : Reg) (b : Byte) : (s.setReg x b).fault = s.fault := rfl

@[simp] theorem setReg_mem (s : State) (x : Reg) (b : Byte) : (s.setReg x b).mem = s.mem := rfl

@[simp] theorem setReg_draws (s : State) (x : Reg) (b : Byte) : (s.setReg x b).draws = s.draws := rfl

@[simp] theorem setReg_v (s : State) (x : Reg) (b : Byte) : (s.setReg x b).v = s.v.set x b := rfl

@[simp] theorem setPc_v (s : State) (w : Word) : (s.setPc w).v = s.v := rfl

@[simp] theorem setPc_i (s : State) (w : Word) : (s.setPc w).i = s.i := rfl

@[simp] theorem setPc_sp (s : State) (w : Word) : (s.setPc w).sp = s.sp := rfl

@[simp] theorem setPc_stack (s : State) (w : Word) : (s.setPc w).stack = s.stack := rfl

@[simp] theorem setPc_dt (s : State) (w : Word) : (s.setPc w).dt = s.dt := rfl

@[simp] theorem setPc_st (s : State) (w : Word) : (s.setPc w).st = s.st := rfl

@[simp] theorem setPc_disp (s : State) (w : Word) : (s.setPc w).disp = s.disp := rfl

@[simp] theorem setPc_key (s : State) (w : Word) : (s.setPc w).key = s.key := rfl

@[simp] theorem setPc_opcode (s : State) (w : Word) : (s.setPc w).opcode = s.opcode := rfl

@[simp] theorem setPc_fault (s : State) (w : Word) : (s.setPc w).fault = s.fault := rfl

@[simp] theorem setPc_mem (s : State) (w : Word) : (s.setPc w).mem = s.mem := rfl

@[simp] theorem setPc_draws (s : State) (w : Word) : (s.setPc w).draws = s.draws := rfl

@[simp] theorem setPc_pc (s : State) (w : Word) : (s.setPc w).pc = wrap12 w := rfl

@[simp] theorem setI_v (s : State) (w : Word) : (s.setI w).v = s.v := rfl

@[simp] theorem setI_pc (s : State) (w : Word) : (s.setI w).pc = s.pc := rfl

@[simp] theorem setI_sp (s : State) (w : Word) : (s.setI w).sp = s.sp := rfl

@[simp] theorem setI_stack (s : State) (w : Word) : (s.setI w).stack = s.stack := rfl

@[simp] theorem setI_dt (s : State) (w : Word) : (s.setI w).dt = s.dt := rfl

@[simp] theorem setI_st (s : State) (w : Word) : (s.setI w).st = s.st := rfl

@[simp] theorem setI_disp (s : State) (w : Word) : (s.setI w).disp = s.disp := rfl

@[simp] theorem setI_key (s : State) (w : Word) : (s.setI w).key = s.key := rfl

@[simp] theorem setI_opcode (s : State) (w : Word) : (s.setI w).opcode = s.opcode := rfl

@[simp] theorem setI_fault (s : State) (w : Word) : (s.setI w).fault = s.fault := rfl

@[simp] theorem setI_mem (s : State) (w : Word) : (s.setI w).mem = s.mem := rfl

@[simp] theorem setI_draws (s : State) (w : Word) : (s.setI w).draws = s.draws := rfl

@[simp] theorem setI_i (s : State) (w : Word) : (s.setI w).i = wrap12 w := rfl

@[simp] theorem fetched_v (s : State) (op : Word) : (s.fetched op).v = s.v := rfl

@[simp] theorem fetched_i (s : State) (op : Word) : (s.fetched op).i = s.i := rfl

@[simp] theorem fetched_sp (s : State) (op : Word) : (s.fetched op).sp = s.sp := rfl

@[simp] theorem fetched_stack (s : State) (op : Word) : (s.fetched op).stack = s.stack := rfl

@[simp] theorem fetched_dt (s : State) (op : Word) : (s.fetched op).dt = s.dt := rfl

@[simp] theorem fetched_st (s : State) (op : Word) : (s.fetched op).st = s.st := rfl

@[simp] theorem fetched_disp (s : State) (op : Word) : (s.fetched op).disp = s.disp := rfl

@[simp] theorem fetched_key (s : State) (op : Word) : (s.fetched op).key = s.key := rfl

@[simp] theorem fetched_fault (s : State) (op : Word) : (s.fetched op).fault = s.fault := rfl

@[simp] theorem fetched_mem (s : State) (op : Word) : (s.fetched op).mem = s.mem := rfl

@[simp] theorem fetched_draws (s : State) (op : Word) : (s.fetched op).draws = s.draws := rfl

@[simp] theorem fetched_pc (s : State) (op : Word) : (s.fetched op).pc = wrap12 (s.pc + 2) := rfl

@[simp] theorem fetched_opcode (s : State) (op : Word) : (s.fetched op).opcode = op := rfl

@[simp] theorem skipIf_v (s : State) (c : Bool) : (s.skipIf c).v = s.v := by cases c <;> rfl

@[simp] theorem skipIf_i (s : State) (c : Bool) : (s.skipIf c).i = s.i := by cases c <;> rfl

@[simp] theorem skipIf_sp (s : State) (c : Bool) : (s.skipIf c).sp = s.sp := by cases c <;> rfl

@[simp] theorem skipIf_stack (s : State) (c : Bool) : (s.skipIf c).stack = s.stack := by cases c <;> rfl

@[simp] theorem skipIf_dt (s : State) (c : Bool) : (s.skipIf c).dt = s.dt := by cases c <;> rfl

@[simp] theorem skipIf_st (s : State) (c : Bool) : (s.skipIf c).st = s.st := by cases c <;> rfl

@[simp] theorem skipIf_disp (s : State) (c : Bool) : (s.skipIf c).disp = s.disp := by cases c <;> rfl

@[simp] theorem skipIf_key (s : State) (c : Bool) : (s.skipIf c).key = s.key := by cases c <;> rfl

@[simp] theorem skipIf_opcode (s : State) (c : Bool) : (s.skipIf c).opcode = s.opcode := by cases c <;> rfl

@[simp] theorem skipIf_fault (s : State) (c : Bool) : (s.skipIf c).fault = s.fault := by cases c <;> rfl

@[simp] theorem skipIf_mem (s : State) (c : Bool) : (s.skipIf c).mem = s.mem := by cases c <;> rfl

@[simp] theorem skipIf_draws (s : State) (c : Bool) : (s.skipIf c).draws = s.draws := by cases c <;> rfl

theorem skipIf_pc (s : State) (c : Bool) : (s.skipIf c).pc = if c then wrap12 (s.pc + 2) else s.pc := by
  cases c <;> rfl

/-! ### Registers -/

theorem reg_eq (s : State) (x : Reg) : s.reg x = s.v[x] := rfl

@[simp] theorem reg_setReg_same (s : State) (x : Reg) (b : Byte) : (s.setReg x b).reg x = b := by
  simp [reg, setReg]

theorem reg_setReg_ne (s : State) {x r : Reg} (b : Byte) (h : r ≠ x) : (s.setReg x b).reg r = s.reg r := by
  have h' : x.val ≠ r.val := fun e => h (Fin.ext e.symm)
  simp [reg, setReg, h']

theorem reg_setReg (s : State) (x r : Reg) (b : Byte) :
    (s.setReg x b).reg r = if r = x then b else s.reg r := by
  split
  · subst r; exact reg_setReg_same s x b
  · exact reg_setReg_ne s b ‹_›

/-- Two states with the same sixteen registers have the same register file. -/
theorem v_ext {s t : State} (h : ∀ r : Reg, s.reg r = t.reg r) : s.v = t.v := by
  apply Vector.ext
  intro k hk
  exact h ⟨k, hk⟩

@[simp] theorem setPc_reg (s : State) (w : Word) (x : Reg) : (s.setPc w).reg x = s.reg x := rfl

@[simp] theorem setI_reg (s : State) (w : Word) (x : Reg) : (s.setI w).reg x = s.reg x := rfl

@[simp] theorem fetched_reg (s : State) (op : Word) (x : Reg) : (s.fetched op).reg x = s.reg x := rfl

@[simp] theorem skipIf_reg (s : State) (c : Bool) (x : Reg) : (s.skipIf c).reg x = s.reg x := by cases c <;> rfl

/-! ### Keys -/

theorem pressed_eq (s : State) (k : Fin 16) : s.pressed k = s.key[k] := rfl

@[simp] theorem setReg_pressed (s : State) (x : Reg) (b : Byte) (k : Fin 16) : (s.setReg x b).pressed k = s.pressed k := rfl

@[simp] theorem fetched_pressed (s : State) (op : Word) (k : Fin 16) : (s.fetched op).pressed k = s.pressed k := rfl

/-! ### Addresses -/

@[simp] theorem wrap12_toNat (w : Word) : (wrap12 w).toNat = w.toNat % 4096 := by
  simp [wrap12]

theorem wrap12_lt (w : Word) : (wrap12 w).toNat < 4096 := by
  rw [wrap12_toNat]; exact Nat.mod_lt _ (by decide)

/-- Reducing mod 4096 is masking to 12 bits (10_state.md R28). -/
theorem wrap12_eq_and (w : Word) : wrap12 w = w &&& 0xFFF#16 := by
  apply BitVec.eq_of_toNat_eq
  rw [wrap12_toNat, BitVec.toNat_and]
  exact (Nat.and_two_pow_sub_one_eq_mod w.toNat 12).symm

theorem effAddr_lt (base : Word) (k : Nat) : effAddr base k < 4096 := Nat.mod_lt _ (by decide)

@[simp] theorem byteToWord_toNat (b : Byte) : (Byte.toWord b).toNat = b.toNat := by
  simp [Byte.toWord]
  omega

@[simp] theorem addrToWord_toNat (a : Addr12) : (Addr12.toWord a).toNat = a.toNat := by
  simp [Addr12.toWord]
  omega

/-- PC of the instruction under execution: two below PC, mod 4096 (R25). -/
theorem instrAddr_toNat (s : State) : s.instrAddr.toNat = (s.pc.toNat + 4094) % 4096 := by
  simp [instrAddr, BitVec.toNat_sub]
  omega

/-- In the state an instruction is performed in, `instrAddr` is the address it was fetched from. -/
theorem instrAddr_fetched (s : State) (op : Word) (h : s.pc.toNat < 4096) : (s.fetched op).instrAddr = s.pc := by
  apply BitVec.eq_of_toNat_eq
  rw [instrAddr_toNat, fetched_pc, wrap12_toNat, BitVec.toNat_add]
  simp
  omega

/-! ### Timers and keys -/

@[simp] theorem tick60_v (s : State) : (tick60 s).v = s.v := rfl

@[simp] theorem tick60_pc (s : State) : (tick60 s).pc = s.pc := rfl

@[simp] theorem tick60_i (s : State) : (tick60 s).i = s.i := rfl

@[simp] theorem tick60_sp (s : State) : (tick60 s).sp = s.sp := rfl

@[simp] theorem tick60_stack (s : State) : (tick60 s).stack = s.stack := rfl

@[simp] theorem tick60_disp (s : State) : (tick60 s).disp = s.disp := rfl

@[simp] theorem tick60_key (s : State) : (tick60 s).key = s.key := rfl

@[simp] theorem tick60_opcode (s : State) : (tick60 s).opcode = s.opcode := rfl

@[simp] theorem tick60_fault (s : State) : (tick60 s).fault = s.fault := rfl

@[simp] theorem tick60_mem (s : State) : (tick60 s).mem = s.mem := rfl

@[simp] theorem tick60_draws (s : State) : (tick60 s).draws = s.draws := rfl

@[simp] theorem setKeys_v (k : Keys) (s : State) : (setKeys k s).v = s.v := rfl

@[simp] theorem setKeys_pc (k : Keys) (s : State) : (setKeys k s).pc = s.pc := rfl

@[simp] theorem setKeys_i (k : Keys) (s : State) : (setKeys k s).i = s.i := rfl

@[simp] theorem setKeys_sp (k : Keys) (s : State) : (setKeys k s).sp = s.sp := rfl

@[simp] theorem setKeys_stack (k : Keys) (s : State) : (setKeys k s).stack = s.stack := rfl

@[simp] theorem setKeys_dt (k : Keys) (s : State) : (setKeys k s).dt = s.dt := rfl

@[simp] theorem setKeys_st (k : Keys) (s : State) : (setKeys k s).st = s.st := rfl

@[simp] theorem setKeys_disp (k : Keys) (s : State) : (setKeys k s).disp = s.disp := rfl

@[simp] theorem setKeys_opcode (k : Keys) (s : State) : (setKeys k s).opcode = s.opcode := rfl

@[simp] theorem setKeys_fault (k : Keys) (s : State) : (setKeys k s).fault = s.fault := rfl

@[simp] theorem setKeys_mem (k : Keys) (s : State) : (setKeys k s).mem = s.mem := rfl

@[simp] theorem setKeys_draws (k : Keys) (s : State) : (setKeys k s).draws = s.draws := rfl

@[simp] theorem setKeys_key (k : Keys) (s : State) : (setKeys k s).key = k := rfl

@[simp] theorem countDown_toNat (b : Byte) : (countDown b).toNat = b.toNat - 1 := by
  unfold countDown
  split
  · simp [BitVec.toNat_sub]
    omega
  · omega

@[simp] theorem tick60_dt (s : State) : (tick60 s).dt = countDown s.dt := rfl

@[simp] theorem tick60_st (s : State) : (tick60 s).st = countDown s.st := rfl

end Sys2Proof.Machine.State
end

