-- ==== Sys2Proof/Laws/Memory.lean ====
section
/-! SUPPORT. The laws of memory: the canonical form is kept, a read after a write, every other address unchanged, and
the block accesses and fetch, said once each. -/

namespace Sys2Proof.Machine.Memory

/-! ### The canonical form -/

theorem wfFrom_cons {lo k : Nat} {b : Byte} {m : Memory} :
    wfFrom lo ((k, b) :: m) = true ↔ lo ≤ k ∧ k < 4096 ∧ b ≠ unlisted k ∧ wfFrom (k + 1) m = true := by
  simp [wfFrom, and_assoc]

theorem wfFrom_mono {lo lo' : Nat} {m : Memory} (h : lo' ≤ lo) (hm : wfFrom lo m = true) : wfFrom lo' m = true := by
  cases m with
  | nil => rfl
  | cons c m =>
    rw [wfFrom_cons] at *
    exact ⟨by omega, hm.2⟩

/-- Below the first listed address everything reads as unlisted. -/
theorem byteAt_below {lo a : Nat} {m : Memory} (hm : wfFrom lo m = true) (h : a < lo) : byteAt m a = unlisted a := by
  induction m generalizing lo with
  | nil => rfl
  | cons c m ih =>
    rw [wfFrom_cons] at hm
    rw [byteAt, if_neg (by omega)]
    exact ih hm.2.2.2 (by omega)

theorem setByte_wfFrom {lo a : Nat} {m : Memory} {b : Byte} (hm : wfFrom lo m = true) (hlo : lo ≤ a) (ha : a < 4096) :
    wfFrom lo (setByte m a b) = true := by
  induction m generalizing lo with
  | nil =>
    rw [setByte]
    split
    · rfl
    · rw [wfFrom_cons]; exact ⟨hlo, ha, ‹_›, rfl⟩
  | cons c m ih =>
    obtain ⟨k, c⟩ := c
    have hm' := wfFrom_cons.mp hm
    rw [setByte]
    by_cases h1 : a < k
    · rw [if_pos h1]
      split
      · exact hm
      · rw [wfFrom_cons, wfFrom_cons]
        exact ⟨hlo, ha, ‹_›, by omega, hm'.2⟩
    · rw [if_neg h1]
      by_cases h2 : a = k
      · rw [if_pos h2]
        split
        · exact wfFrom_mono (by omega) hm'.2.2.2
        · rw [wfFrom_cons]
          exact ⟨hlo, ha, ‹_›, h2 ▸ hm'.2.2.2⟩
      · rw [if_neg h2, wfFrom_cons]
        exact ⟨hm'.1, hm'.2.1, hm'.2.2.1, ih hm'.2.2.2 (by omega)⟩

/-- A write inside the space keeps the canonical form. -/
theorem setByte_wf {m : Memory} {a : Nat} {b : Byte} (hm : wf m = true) (ha : a < 4096) : wf (setByte m a b) = true :=
  setByte_wfFrom hm (Nat.zero_le a) ha

theorem reset_mem_wf : wf State.reset.mem = true := rfl

/-! ### Reads and writes of a byte -/

theorem byteAt_setByte_sameFrom {lo a : Nat} {m : Memory} {b : Byte} (hm : wfFrom lo m = true) :
    byteAt (setByte m a b) a = b := by
  induction m generalizing lo with
  | nil =>
    rw [setByte]
    split
    · simp [byteAt, *]
    · simp [byteAt]
  | cons c m ih =>
    obtain ⟨k, c⟩ := c
    have hm' := wfFrom_cons.mp hm
    rw [setByte]
    by_cases h1 : a < k
    · rw [if_pos h1]
      split
      · rw [byteAt, if_neg (by omega), byteAt_below hm'.2.2.2 (by omega)]
        exact Eq.symm ‹_›
      · simp [byteAt]
    · rw [if_neg h1]
      by_cases h2 : a = k
      · rw [if_pos h2]
        split
        · rw [byteAt_below hm'.2.2.2 (by omega)]
          exact Eq.symm ‹_›
        · simp [byteAt]
      · rw [if_neg h2, byteAt, if_neg h2]
        exact ih hm'.2.2.2

/-- A read after a write to the same address gives the value written. -/
theorem byteAt_setByte_same {m : Memory} {a : Nat} {b : Byte} (hm : wf m = true) : byteAt (setByte m a b) a = b :=
  byteAt_setByte_sameFrom hm

/-- A write leaves every other address alone. -/
theorem byteAt_setByte_ne {m : Memory} {a a' : Nat} {b : Byte} (h : a' ≠ a) :
    byteAt (setByte m a b) a' = byteAt m a' := by
  induction m with
  | nil =>
    rw [setByte]
    split
    · rfl
    · simp [byteAt, h]
  | cons c m ih =>
    obtain ⟨k, c⟩ := c
    rw [setByte]
    by_cases h1 : a < k
    · rw [if_pos h1]
      split
      · rfl
      · rw [byteAt, if_neg h]
    · rw [if_neg h1]
      by_cases h2 : a = k
      · subst h2
        rw [if_pos rfl]
        split <;> simp [byteAt, h]
      · rw [if_neg h2, byteAt, byteAt, ih]

theorem byteAt_setByte {m : Memory} {a a' : Nat} {b : Byte} (hm : wf m = true) :
    byteAt (setByte m a b) a' = if a' = a then b else byteAt m a' := by
  split
  · subst a'; exact byteAt_setByte_same hm
  · exact byteAt_setByte_ne ‹_›

/-- A canonical memory is determined by what its addresses read as. -/
theorem ext_wfFrom {lo : Nat} {m m' : Memory} (hm : wfFrom lo m = true) (hm' : wfFrom lo m' = true)
    (h : ∀ a, byteAt m a = byteAt m' a) : m = m' := by
  induction m generalizing lo m' with
  | nil =>
    cases m' with
    | nil => rfl
    | cons c m' =>
      obtain ⟨k, b⟩ := c
      have h' := wfFrom_cons.mp hm'
      have := h k
      simp [byteAt] at this
      exact absurd this.symm h'.2.2.1
  | cons c m ih =>
    obtain ⟨k, b⟩ := c
    have h1 := wfFrom_cons.mp hm
    cases m' with
    | nil =>
      have := h k
      simp [byteAt] at this
      exact absurd this h1.2.2.1
    | cons c' m' =>
      obtain ⟨k', b'⟩ := c'
      have h2 := wfFrom_cons.mp hm'
      have hk : k = k' := by
        rcases Nat.lt_trichotomy k k' with hlt | heq | hgt
        · have := h k
          rw [byteAt, if_pos rfl, byteAt, if_neg (by omega), byteAt_below h2.2.2.2 (by omega)] at this
          exact absurd this h1.2.2.1
        · exact heq
        · have := h k'
          rw [byteAt, if_neg (by omega), byteAt_below h1.2.2.2 (by omega), byteAt, if_pos rfl] at this
          exact absurd this.symm h2.2.2.1
      subst hk
      have hb : b = b' := by simpa [byteAt] using h k
      subst hb
      rw [ih h1.2.2.2 h2.2.2.2 fun a => ?_]
      by_cases ha : a = k
      · rw [ha, byteAt_below h1.2.2.2 (Nat.lt_succ_self k), byteAt_below h2.2.2.2 (Nat.lt_succ_self k)]
      · simpa [byteAt, ha] using h a

theorem ext_wf {m m' : Memory} (hm : wf m = true) (hm' : wf m' = true) (h : ∀ a, byteAt m a = byteAt m' a) : m = m' :=
  ext_wfFrom hm hm' h

/-! ### MemRead and MemWrite -/

theorem memRead_lt {m : Memory} {a : Nat} (h : a < 4096) : memRead m a = .ok (byteAt m a) := if_pos h

theorem memRead_ge {m : Memory} {a : Nat} (h : 4096 ≤ a) : memRead m a = .error a := if_neg (Nat.not_lt.mpr h)

theorem memWrite_lt {m : Memory} {a : Nat} {b : Byte} (h : a < 4096) : memWrite m a b = .ok (setByte m a b) := if_pos h

theorem memWrite_ge {m : Memory} {a : Nat} {b : Byte} (h : 4096 ≤ a) : memWrite m a b = .error a := if_neg (Nat.not_lt.mpr h)

/-! ### Blocks at an effective address -/

/-- Every effective address is inside the space, so a block read always answers its bytes (R64, R248). -/
theorem readBlock_eq (m : Memory) (base : Word) (k n : Nat) :
    readBlock m base k n = .ok ((List.range n).map fun j => byteAt m (effAddr base (k + j))) := by
  induction n generalizing k with
  | zero => rfl
  | succ n ih =>
    rw [readBlock, memRead_lt (State.effAddr_lt base k), ih]
    simp only [List.range_succ_eq_map, List.map_cons, List.map_map, Nat.add_zero]
    congr 2
    apply List.map_congr_left
    intro j _
    simp only [Function.comp_apply, Nat.succ_eq_add_one]
    rw [Nat.add_right_comm, Nat.add_assoc]

/-- The memory a block write gives: the same writes without their address check. -/
def setBlock (m : Memory) (base : Word) (k : Nat) : List Byte → Memory
  | [] => m
  | b :: bs => setBlock (setByte m (effAddr base k) b) base (k + 1) bs

/-- Every effective address is inside the space, so a block write always lands (R64, R248). -/
theorem writeBlock_eq (m : Memory) (base : Word) (k : Nat) (bs : List Byte) :
    writeBlock m base k bs = .ok (setBlock m base k bs) := by
  induction bs generalizing m k with
  | nil => rfl
  | cons b bs ih => rw [writeBlock, memWrite_lt (State.effAddr_lt base k)]; exact ih _ _

theorem setBlock_wf {m : Memory} (base : Word) (k : Nat) (bs : List Byte) (hm : wf m = true) :
    wf (setBlock m base k bs) = true := by
  induction bs generalizing m k with
  | nil => exact hm
  | cons b bs ih => exact ih _ (setByte_wf hm (State.effAddr_lt base k))

/-- Outside the block's addresses nothing changes. -/
theorem byteAt_setBlock_other {m : Memory} {base : Word} {k : Nat} {bs : List Byte} {a : Nat}
    (h : ∀ j < bs.length, a ≠ effAddr base (k + j)) : byteAt (setBlock m base k bs) a = byteAt m a := by
  induction bs generalizing m k with
  | nil => rfl
  | cons b bs ih =>
    rw [setBlock, ih, byteAt_setByte_ne]
    · simpa using h 0 (by simp)
    · intro j hj
      have := h (j + 1) (by simpa using hj)
      rwa [Nat.add_right_comm, Nat.add_assoc] at *

/-- Distinct offsets below 4096 give distinct effective addresses. -/
theorem effAddr_inj {base : Word} {j k : Nat} (hjk : j < k) (h : k < j + 4096) : effAddr base j ≠ effAddr base k := by
  unfold effAddr Config.memSize
  omega

/-- Byte `j` of the block stands at its effective address, for a block no longer than the memory. -/
theorem byteAt_setBlock_at {m : Memory} {base : Word} {k : Nat} {bs : List Byte} (hm : wf m = true) {j : Nat}
    (hj : j < bs.length) (hlen : bs.length ≤ 4096) : byteAt (setBlock m base k bs) (effAddr base (k + j)) = bs[j] := by
  induction bs generalizing m k j with
  | nil => exact absurd hj (Nat.not_lt_zero j)
  | cons b bs ih =>
    have hm' := setByte_wf (b := b) hm (State.effAddr_lt base k)
    simp only [List.length_cons] at hj hlen
    cases j with
    | zero =>
      rw [setBlock, byteAt_setBlock_other, Nat.add_zero, byteAt_setByte_same hm]
      · rfl
      · intro i hi
        exact effAddr_inj (by omega) (by omega)
    | succ j =>
      have := ih hm' (k := k + 1) (j := j) (by omega) (by omega)
      rw [show k + 1 + j = k + (j + 1) by omega] at this
      simpa [setBlock] using this

/-! ### Construct's copies -/

theorem layBytes_wf {m : Memory} {base : Nat} {bs : List Byte} (hm : wf m = true) (h : base + bs.length ≤ 4096) :
    wf (layBytes m base bs) = true := by
  induction bs generalizing m base with
  | nil => exact hm
  | cons b bs ih =>
    simp only [List.length_cons] at h
    exact ih (setByte_wf hm (by omega)) (by omega)

theorem byteAt_layBytes_other {m : Memory} {base a : Nat} {bs : List Byte} (h : a < base ∨ base + bs.length ≤ a) :
    byteAt (layBytes m base bs) a = byteAt m a := by
  induction bs generalizing m base with
  | nil => rfl
  | cons b bs ih =>
    simp only [List.length_cons] at h
    rw [layBytes, ih (by omega), byteAt_setByte_ne (by omega)]

theorem byteAt_layBytes_at {m : Memory} {base j : Nat} {bs : List Byte} (hm : wf m = true) (hj : j < bs.length)
    (h : base + bs.length ≤ 4096) : byteAt (layBytes m base bs) (base + j) = bs[j] := by
  induction bs generalizing m base j with
  | nil => exact absurd hj (Nat.not_lt_zero j)
  | cons b bs ih =>
    simp only [List.length_cons] at hj h
    cases j with
    | zero => rw [layBytes, byteAt_layBytes_other (by omega), Nat.add_zero, byteAt_setByte_same hm]; rfl
    | succ j =>
      have := ih (setByte_wf (b := b) hm (a := base) (by omega)) (base := base + 1) (j := j) (by omega) (by omega)
      rw [show base + 1 + j = base + (j + 1) by omega] at this
      simpa [layBytes] using this

/-! ### Fetch -/

/-- Below 4096 a fetch always gives a word. -/
theorem fetch16_eq {m : Memory} {a : Word} (h : a.toNat < 4096) :
    fetch16 m a = .ok (byteAt m a.toNat ++ byteAt m ((a.toNat + 1) % 4096)) := by
  rw [fetch16, memRead_lt h, memRead_lt (Nat.mod_lt _ (by decide))]

/-- At 4096 or above the fetch's first read gives the bad address. -/
theorem fetch16_ge {m : Memory} {a : Word} (h : 4096 ≤ a.toNat) : fetch16 m a = .error a.toNat := by
  rw [fetch16, memRead_ge h]

theorem append_toNat (hi lo : Byte) : (hi ++ lo : Word).toNat = 256 * hi.toNat + lo.toNat := by
  have := lo.isLt
  rw [BitVec.toNat_append, Nat.shiftLeft_eq, Nat.mul_comm, ← Nat.two_pow_add_eq_or_of_lt this]

end Sys2Proof.Machine.Memory
end

