-- ==== Sys2Proof/Laws/Ops.lean ====
section
/-! SUPPORT. What the shared operations do, said once each: register loads, the stack, the key scan, the operand forms. -/

namespace Sys2Proof.Machine

/-! ### Loading registers from a list -/

theorem loadRegs_getElem (v : Vector Byte 16) (k : Nat) (bs : List Byte) (r : Nat) (hr : r < 16) :
    (loadRegs v k bs)[r] = if h : k ≤ r ∧ r - k < bs.length then bs[r - k] else v[r] := by
  induction bs generalizing v k with
  | nil => simp [loadRegs]
  | cons b bs ih =>
    rw [loadRegs, ih]
    simp only [List.length_cons]
    by_cases h : k = r
    · subst h
      simp
    · by_cases h1 : k + 1 ≤ r ∧ r - (k + 1) < bs.length
      · rw [dif_pos h1, dif_pos (by omega)]
        simp only [show r - k = r - (k + 1) + 1 by omega, List.getElem_cons_succ]
      · rw [dif_neg h1, dif_neg (by omega), Vector.getElem_setIfInBounds_ne hr h]

/-- The registers up to `x`, as a list. -/
theorem State.regsUpTo_length (s : State) (x : Reg) : (s.regsUpTo x).length = x.val + 1 := by
  simp [regsUpTo]

theorem State.regsUpTo_getElem (s : State) (x : Reg) (j : Nat) (hj : j < (s.regsUpTo x).length) :
    (s.regsUpTo x)[j] = s.reg ⟨j, by have := s.regsUpTo_length x; have := x.isLt; omega⟩ := by
  simp [regsUpTo, reg]

/-! ### The stack -/

/-- A push on a stack that is not full. -/
theorem State.push_of_lt (s : State) (w : Word) (h : s.sp.val < 16) :
    s.push w = some { s with stack := s.stack.set s.sp.val (w.setWidth 12), sp := ⟨s.sp.val + 1, Nat.succ_lt_succ h⟩ } :=
  dif_pos h

/-- A push on a full stack does not happen. -/
theorem State.push_full (s : State) (w : Word) (h : s.sp = 16) : s.push w = none := by
  simp [push, h]

/-- A pop of a stack that is not empty. -/
theorem State.pop_of_pos (s : State) (h : 0 < s.sp.val) :
    s.pop = some ((s.stack[s.sp.val - 1]'(by have := s.sp.isLt; omega)).toWord,
      { s with sp := ⟨s.sp.val - 1, by have := s.sp.isLt; omega⟩ }) :=
  dif_pos h

/-- A pop of an empty stack does not happen. -/
theorem State.pop_empty (s : State) (h : s.sp = 0) : s.pop = none := by
  simp [pop, h]

/-! ### The key scan -/

theorem firstPressedFrom_some {key : Keys} {k n j : Nat} (h : firstPressedFrom key k n = some j) :
    k ≤ j ∧ j < k + n ∧ key[j]?.getD false = true ∧ ∀ i, k ≤ i → i < j → key[i]?.getD false = false := by
  induction n generalizing k with
  | zero => simp [firstPressedFrom] at h
  | succ n ih =>
    rw [firstPressedFrom] at h
    split at h
    · obtain rfl := Option.some.inj h
      exact ⟨Nat.le_refl _, by omega, ‹_›, fun i h1 h2 => by omega⟩
    · obtain ⟨h1, h2, h3, h4⟩ := ih h
      refine ⟨by omega, by omega, h3, fun i hi hj => ?_⟩
      by_cases hik : i = k
      · subst hik; exact Bool.eq_false_iff.mpr ‹¬ _›
      · exact h4 i (by omega) hj

theorem firstPressedFrom_none {key : Keys} {k n : Nat} (h : firstPressedFrom key k n = none) :
    ∀ i, k ≤ i → i < k + n → key[i]?.getD false = false := by
  induction n generalizing k with
  | zero => intro i _ _; omega
  | succ n ih =>
    rw [firstPressedFrom] at h
    split at h
    · exact absurd h (by simp)
    · intro i h1 h2
      by_cases hik : i = k
      · subst hik; exact Bool.eq_false_iff.mpr ‹¬ _›
      · exact ih h i (by omega) (by omega)

/-- A found key is pressed and no lower one is. -/
theorem firstPressed_some {key : Keys} {k : Nat} (h : firstPressed key = some k) :
    ∃ hk : k < 16, key[k] = true ∧ ∀ i : Fin 16, i.val < k → key[i] = false := by
  obtain ⟨-, h2, h3, h4⟩ := firstPressedFrom_some h
  refine ⟨by omega, ?_, fun i hi => ?_⟩
  · simpa [show k < 16 by omega] using h3
  · simpa using h4 i.val (by omega) hi

/-- No key is found only when none is pressed. -/
theorem firstPressed_none {key : Keys} (h : firstPressed key = none) (i : Fin 16) : key[i] = false := by
  simpa using firstPressedFrom_none h i.val (by omega) (by omega)

/-! ### Operand forms -/

@[simp] theorem lowNibble_val (b : Byte) : (lowNibble b).val = b.toNat % 16 := by
  simp [lowNibble]

/-- The glyph address is `5 * digit` (R182). -/
theorem glyphAddr_toNat (d : Fin 16) : (glyphAddr d).toNat = 5 * d.val := by
  have := d.isLt
  rw [glyphAddr, BitVec.toNat_ofNat, Config.fontBase, Config.fontGlyph]
  omega

@[simp] theorem isOdd_iff (a : Word) : isOdd a = true ↔ a.toNat % 2 = 1 := by
  simp [isOdd]

@[simp] theorem flagByte_eq_one (f : Bool) : flagByte f = 1 ↔ f = true := by
  cases f <;> decide

@[simp] theorem flagByte_toNat (f : Bool) : (flagByte f).toNat = if f then 1 else 0 := by
  cases f <;> rfl

@[simp] theorem bcdDigits_length (b : Byte) : (bcdDigits b).length = 3 := rfl

end Sys2Proof.Machine
end

