-- ==== Sys2Proof/Laws/Display.lean ====
section
/-! SUPPORT. Drawing a sprite is plotting a list of distinct pixels: each plotted cell is flipped once and the hit flag
says whether one of them was set before (spec 43_display.md R201, R203). -/

namespace Sys2Proof.Machine.Display

@[simp] theorem cell_blank (cx : Fin 64) (cy : Fin 32) : blank.cell cx cy = false := by
  simp [blank, cell]

theorem cell_flip (d : Display) (cx cx' : Fin 64) (cy cy' : Fin 32) :
    (d.flip cx cy).cell cx' cy' = if cx' = cx ∧ cy' = cy then !d.cell cx cy else d.cell cx' cy' := by
  by_cases hy : cy' = cy
  · subst hy
    by_cases hx : cx' = cx
    · subst hx
      simp [flip, cell]
    · have : cx.val ≠ cx'.val := fun h => hx (Fin.ext h.symm)
      simp [flip, cell, hx, this]
  · have : cy.val ≠ cy'.val := fun h => hy (Fin.ext h.symm)
    simp [flip, cell, hy, this]

/-- Two displays with the same cells are the same. -/
theorem ext_cell {d d' : Display} (h : ∀ cx cy, d.cell cx cy = d'.cell cx cy) : d = d' := by
  apply Vector.ext
  intro y hy
  apply Vector.ext
  intro x hx
  exact h ⟨x, hx⟩ ⟨y, hy⟩

/-- Pixels plotted one after the other. -/
def plotAll (a : Display × Bool) : List (Fin 64 × Fin 32) → Display × Bool
  | [] => a
  | p :: ps => plotAll (plot a p.1 p.2) ps

theorem plotAll_append (a : Display × Bool) (ps qs : List (Fin 64 × Fin 32)) :
    plotAll a (ps ++ qs) = plotAll (plotAll a ps) qs := by
  induction ps generalizing a with
  | nil => rfl
  | cons p ps ih => exact ih _

/-- The set pixels of columns `c .. c + k - 1` of row `r`. -/
def pixelsOfCols (px py r : Nat) (b : Byte) (c : Nat) : Nat → List (Fin 64 × Fin 32)
  | 0 => []
  | k + 1 =>
    (if b.getLsbD (7 - c) then [(wrapX px c, wrapY py r)] else []) ++ pixelsOfCols px py r b (c + 1) k

/-- The set pixels of a sprite whose first row is row `r`. -/
def pixels (px py r : Nat) : List Byte → List (Fin 64 × Fin 32)
  | [] => []
  | b :: bs => pixelsOfCols px py r b 0 8 ++ pixels px py (r + 1) bs

theorem drawCols_eq_plotAll (px py r : Nat) (b : Byte) (c k : Nat) (a : Display × Bool) :
    drawCols px py r b c k a = plotAll a (pixelsOfCols px py r b c k) := by
  induction k generalizing c a with
  | zero => rfl
  | succ k ih =>
    rw [drawCols, pixelsOfCols, ih, plotAll_append]
    split <;> rfl

theorem drawRows_eq_plotAll (px py r : Nat) (bs : List Byte) (a : Display × Bool) :
    drawRows px py r bs a = plotAll a (pixels px py r bs) := by
  induction bs generalizing r a with
  | nil => rfl
  | cons b bs ih => rw [drawRows, pixels, ih, plotAll_append, drawCols_eq_plotAll]

theorem mem_pixelsOfCols {px py r : Nat} {b : Byte} {c k : Nat} {p : Fin 64 × Fin 32} :
    p ∈ pixelsOfCols px py r b c k ↔
      ∃ j, c ≤ j ∧ j < c + k ∧ b.getLsbD (7 - j) = true ∧ p = (wrapX px j, wrapY py r) := by
  induction k generalizing c with
  | zero =>
    simp only [pixelsOfCols, List.not_mem_nil, false_iff, not_exists]
    intro j h
    omega
  | succ k ih =>
    simp only [pixelsOfCols, List.mem_append, ih]
    constructor
    · rintro (h | ⟨j, h1, h2, h3⟩)
      · split at h
        · exact ⟨c, by omega, by omega, ‹_›, by simpa using h⟩
        · simp at h
      · exact ⟨j, by omega, by omega, h3⟩
    · rintro ⟨j, h1, h2, h3, h4⟩
      by_cases hj : j = c
      · subst hj
        left
        simp [h3, h4]
      · exact .inr ⟨j, by omega, by omega, h3, h4⟩

theorem mem_pixels {px py r : Nat} {bs : List Byte} {p : Fin 64 × Fin 32} :
    p ∈ pixels px py r bs ↔
      ∃ k, ∃ hk : k < bs.length, ∃ j < 8, bs[k].getLsbD (7 - j) = true ∧ p = (wrapX px j, wrapY py (r + k)) := by
  induction bs generalizing r with
  | nil => simp [pixels]
  | cons b bs ih =>
    simp only [pixels, List.mem_append, ih, mem_pixelsOfCols]
    constructor
    · rintro (⟨j, -, h2, h3, h4⟩ | ⟨k, hk, j, hj, h3, h4⟩)
      · exact ⟨0, by simp, j, by omega, h3, h4⟩
      · exact ⟨k + 1, by simpa using hk, j, hj, h3, by rw [h4, Nat.add_right_comm, Nat.add_assoc]⟩
    · rintro ⟨k, hk, j, hj, h3, h4⟩
      cases k with
      | zero => exact .inl ⟨j, by omega, by omega, h3, h4⟩
      | succ k =>
        exact .inr ⟨k, by simpa using hk, j, hj, h3, by rw [h4, Nat.add_right_comm r 1 k, Nat.add_assoc]⟩

theorem wrapX_val (px c : Nat) : (wrapX px c).val = (px + c) % 64 := rfl

theorem wrapY_val (py r : Nat) : (wrapY py r).val = (py + r) % 32 := rfl

theorem wrapX_inj {px j k : Nat} (hj : j < 64) (hk : k < 64) (h : wrapX px j = wrapX px k) : j = k := by
  have := congrArg Fin.val h
  rw [wrapX_val, wrapX_val] at this
  omega

theorem wrapY_inj {py j k : Nat} (h1 : j ≤ k) (h2 : k < j + 32) (h : wrapY py j = wrapY py k) : j = k := by
  have := congrArg Fin.val h
  rw [wrapY_val, wrapY_val] at this
  omega

theorem pixelsOfCols_nodup (px py r : Nat) (b : Byte) (c k : Nat) (h : c + k ≤ 8) :
    (pixelsOfCols px py r b c k).Nodup := by
  induction k generalizing c with
  | zero => exact List.nodup_nil
  | succ k ih =>
    rw [pixelsOfCols]
    split
    · rw [List.singleton_append, List.nodup_cons]
      refine ⟨fun hm => ?_, ih (c + 1) (by omega)⟩
      obtain ⟨j, h1, h2, -, h4⟩ := mem_pixelsOfCols.mp hm
      have := wrapX_inj (by omega) (by omega) (Prod.mk.inj h4).1
      omega
    · simpa using ih (c + 1) (by omega)

/-- The pixels of a sprite of at most 32 rows are distinct (R203). -/
theorem pixels_nodup (px py r : Nat) (bs : List Byte) (h : bs.length ≤ 32) : (pixels px py r bs).Nodup := by
  induction bs generalizing r with
  | nil => exact List.nodup_nil
  | cons b bs ih =>
    simp only [List.length_cons] at h
    rw [pixels, List.nodup_append]
    refine ⟨pixelsOfCols_nodup px py r b 0 8 (by omega), ih (r + 1) (by omega), fun p hp q hq hpq => ?_⟩
    subst hpq
    obtain ⟨j, -, -, -, h1⟩ := mem_pixelsOfCols.mp hp
    obtain ⟨k, hk, i, -, -, h2⟩ := mem_pixels.mp hq
    have := wrapY_inj (by omega) (by omega) (Prod.mk.inj (h1.symm.trans h2)).2
    omega

theorem cell_plotAll (a : Display × Bool) (ps : List (Fin 64 × Fin 32)) (h : ps.Nodup) (cx : Fin 64) (cy : Fin 32) :
    (plotAll a ps).1.cell cx cy = (a.1.cell cx cy ^^ decide ((cx, cy) ∈ ps)) := by
  induction ps generalizing a with
  | nil => simp [plotAll]
  | cons p ps ih =>
    obtain ⟨hp, hps⟩ := List.nodup_cons.mp h
    rw [plotAll, ih _ hps, plot, cell_flip]
    by_cases he : (cx, cy) = p
    · subst he
      simp [hp]
    · have : ¬(cx = p.1 ∧ cy = p.2) := fun hc => he (Prod.ext hc.1 hc.2)
      rw [if_neg this]
      simp [he]

theorem hit_plotAll (a : Display × Bool) (ps : List (Fin 64 × Fin 32)) (h : ps.Nodup) :
    (plotAll a ps).2 = (a.2 || ps.any fun p => a.1.cell p.1 p.2) := by
  induction ps generalizing a with
  | nil => simp [plotAll]
  | cons p ps ih =>
    obtain ⟨hp, hps⟩ := List.nodup_cons.mp h
    have hany : (ps.any fun q => (plot a p.1 p.2).1.cell q.1 q.2) = ps.any fun q => a.1.cell q.1 q.2 := by
      rw [Bool.eq_iff_iff]
      simp only [List.any_eq_true]
      have hne : ∀ q ∈ ps, (plot a p.1 p.2).1.cell q.1 q.2 = a.1.cell q.1 q.2 := by
        intro q hq
        rw [plot, cell_flip, if_neg]
        intro hc
        exact hp (Prod.ext hc.1 hc.2 ▸ hq)
      constructor
      · rintro ⟨q, hq, hc⟩; exact ⟨q, hq, hne q hq ▸ hc⟩
      · rintro ⟨q, hq, hc⟩; exact ⟨q, hq, (hne q hq).symm ▸ hc⟩
    rw [plotAll, ih _ hps, hany]
    simp [plot, Bool.or_assoc]

end Sys2Proof.Machine.Display
end

