-- ==== Sys2Proof/Laws/Exec.lean ====
section
/-! SUPPORT. What a meaning and the instruction cycle can do, said once each: the meanings that branch in closed form,
that every instruction answers a next state, and the cases of a Step. -/

namespace Sys2Proof.Machine

/-! ### Meanings in closed form -/

theorem execRet_of_pos (s : State) (h : 0 < s.sp.val) :
    execRet s = .next (State.setPc { s with sp := ⟨s.sp.val - 1, by have := s.sp.isLt; omega⟩ }
      (s.stack[s.sp.val - 1]'(by have := s.sp.isLt; omega)).toWord) := by
  rw [execRet, State.pop_of_pos s h]

theorem execRet_empty (s : State) (h : s.sp = 0) :
    execRet s = .next { s with pc := s.instrAddr, fault := some (.stackUnderflow 0x00EE#16 s.instrAddr) } := by
  rw [execRet, State.pop_empty s h]; rfl

theorem execCall_of_lt (nnn : Addr12) (s : State) (h : s.sp.val < 16) :
    execCall nnn s = .next (State.setPc
      { s with stack := s.stack.set s.sp.val (s.pc.setWidth 12), sp := ⟨s.sp.val + 1, Nat.succ_lt_succ h⟩ }
      nnn.toWord) := by
  rw [execCall, State.push_of_lt s s.pc h]

theorem execCall_full (nnn : Addr12) (s : State) (h : s.sp = 16) :
    execCall nnn s = .next { s with pc := s.instrAddr, fault := some (.stackOverflow s.opcode s.instrAddr) } := by
  rw [execCall, State.push_full s s.pc h]; rfl

theorem storeAtI_eq (bytes : List Byte) (s : State) :
    storeAtI bytes s = .next { s with mem := s.mem.setBlock s.i 0 bytes } := by
  rw [storeAtI, Memory.writeBlock_eq]

theorem execLdVxMi_eq (x : Reg) (s : State) :
    execLdVxMi x s = .next
      { s with v := loadRegs s.v 0 ((List.range (x.val + 1)).map fun k => s.mem.byteAt (effAddr s.i (0 + k))) } := by
  rw [execLdVxMi, Memory.readBlock_eq]

/-- The rows DRW reads. -/
theorem readBlock_spriteRows (s : State) (n : Nat) : s.mem.readBlock s.i 0 n = .ok (spriteRows s n) := by
  rw [Memory.readBlock_eq]
  simp [spriteRows, effAddr]

theorem execDrw_eq (x y : Reg) (n : Nat) (s : State) :
    execDrw x y n s =
      let drawn := Display.plotAll (s.disp, false)
        (Display.pixels (s.reg x).toNat (s.reg y).toNat 0 (spriteRows s n))
      .next ({ s with disp := drawn.1 }.setReg .VF (flagByte drawn.2)) := by
  rw [execDrw, readBlock_spriteRows]
  simp only [Display.drawRows_eq_plotAll]

theorem execLdVxK_some (x : Reg) (s : State) {k : Nat} (h : firstPressed s.key = some k) :
    execLdVxK x s = .next (s.setReg x (BitVec.ofNat 8 k)) := by
  rw [execLdVxK, h]

theorem execLdVxK_none (x : Reg) (s : State) (h : firstPressed s.key = none) :
    execLdVxK x s = .next (s.setPc (s.pc - 2)) := by
  rw [execLdVxK, h]

/-! ### Every instruction answers a next state -/

theorem execRet_next (s : State) : ∃ t, execRet s = .next t := by
  by_cases h : 0 < s.sp.val
  · exact ⟨_, execRet_of_pos s h⟩
  · exact ⟨_, execRet_empty s (Fin.ext (by simpa using h))⟩

theorem execCall_next (nnn : Addr12) (s : State) : ∃ t, execCall nnn s = .next t := by
  by_cases h : s.sp.val < 16
  · exact ⟨_, execCall_of_lt nnn s h⟩
  · exact ⟨_, execCall_full nnn s (Fin.ext (by have := s.sp.isLt; simp; omega))⟩

theorem execLdVxK_next (x : Reg) (s : State) : ∃ t, execLdVxK x s = .next t := by
  cases h : firstPressed s.key with
  | none => exact ⟨_, execLdVxK_none x s h⟩
  | some k => exact ⟨_, execLdVxK_some x s h⟩

theorem exec_next (i : Instr) (s : State) : ∃ t, exec i s = .next t := by
  cases i
  case ret => exact execRet_next s
  case call nnn => exact execCall_next nnn s
  case ldVxK x => exact execLdVxK_next x s
  case ldBVx x => exact ⟨_, storeAtI_eq _ s⟩
  case ldMiVx x => exact ⟨_, storeAtI_eq _ s⟩
  case ldVxMi x => exact ⟨_, execLdVxMi_eq x s⟩
  case drw x y n => exact ⟨_, execDrw_eq x y n s⟩
  all_goals exact ⟨_, rfl⟩

/-! ### The cases of a Step (30_encoding.md R100) -/

section Cycle

variable {policy : Config.OddPcFetch} {run : Instr → State → Result} {s : State}

theorem cycle_faulted {f : Fault} (h : s.fault = some f) : cycle policy run s = .fault f := by
  simp [cycle, h]

theorem cycle_odd (hf : s.fault = none) (h : (isOdd s.pc && policy == .fault) = true) :
    cycle policy run s = raise s.pc (.misalignedFetch s.pc) s := by
  simp only [cycle, hf, h, if_true]

theorem cycle_range {a : Nat} (hf : s.fault = none) (h : (isOdd s.pc && policy == .fault) = false)
    (hr : s.mem.fetch16 s.pc = .error a) :
    cycle policy run s = raise s.pc (.addressOutOfRange a none s.pc) s := by
  simp only [cycle, hf, h, hr, Bool.false_eq_true, if_false]

theorem cycle_unknown {op : Word} {e : DecodeError} (hf : s.fault = none)
    (h : (isOdd s.pc && policy == .fault) = false) (hr : s.mem.fetch16 s.pc = .ok op) (hd : decode op = .error e) :
    cycle policy run s = raise s.pc (.unknownOpcode op s.pc) { s with opcode := op } := by
  simp only [cycle, hf, h, hr, hd, Bool.false_eq_true, if_false]

theorem cycle_performs {op : Word} {i : Instr} (hf : s.fault = none)
    (h : (isOdd s.pc && policy == .fault) = false) (hr : s.mem.fetch16 s.pc = .ok op) (hd : decode op = .ok i) :
    cycle policy run s = run i (s.fetched op) := by
  simp only [cycle, hf, h, hr, hd, Bool.false_eq_true, if_false]

/-- Everything a Step that answers a next state can have done. -/
theorem cycle_cases {t : State} (h : cycle policy run s = .next t) :
    s.fault = none ∧
      (((isOdd s.pc && policy == .fault) = true ∧ t = { s with fault := some (.misalignedFetch s.pc) }) ∨
       ((isOdd s.pc && policy == .fault) = false ∧ ∃ a, s.mem.fetch16 s.pc = .error a ∧
          t = { s with fault := some (.addressOutOfRange a none s.pc) }) ∨
       ((isOdd s.pc && policy == .fault) = false ∧ ∃ op e, s.mem.fetch16 s.pc = .ok op ∧ decode op = .error e ∧
          t = { s with opcode := op, fault := some (.unknownOpcode op s.pc) }) ∨
       ((isOdd s.pc && policy == .fault) = false ∧ ∃ op i, s.mem.fetch16 s.pc = .ok op ∧ decode op = .ok i ∧
          run i (s.fetched op) = .next t)) := by
  cases hf : s.fault with
  | some f => rw [cycle_faulted hf] at h; cases h
  | none =>
    refine ⟨rfl, ?_⟩
    cases ho : isOdd s.pc && policy == .fault with
    | true =>
      rw [cycle_odd hf ho] at h
      cases h
      exact .inl ⟨rfl, rfl⟩
    | false =>
      refine .inr ?_
      cases hr : s.mem.fetch16 s.pc with
      | error a =>
        rw [cycle_range hf ho hr] at h
        cases h
        exact .inl ⟨rfl, a, rfl, rfl⟩
      | ok op =>
        refine .inr ?_
        cases hd : decode op with
        | error e =>
          rw [cycle_unknown hf ho hr hd] at h
          cases h
          exact .inl ⟨rfl, op, e, rfl, hd, rfl⟩
        | ok i =>
          rw [cycle_performs hf ho hr hd] at h
          exact .inr ⟨rfl, op, i, rfl, hd, h⟩

end Cycle

end Sys2Proof.Machine
end

