-- ==== Sys2Proof/Laws/PerInstr.lean ====
section
/-! SUPPORT. Per instruction: its word carries the fixed bits of its row of spec/opcode_table.json. -/

namespace Sys2Proof.Laws.TableRow

/-- The `mask` and the `match` of the instruction's row. -/
def maskAndMatch : Instr → Word × Word
  | .cls => (0xFFFF#16, 0x00E0#16)   -- CLS
  | .ret => (0xFFFF#16, 0x00EE#16)   -- RET
  | .jp _ => (0xF000#16, 0x1000#16)   -- JP
  | .call _ => (0xF000#16, 0x2000#16)   -- CALL
  | .seImm _ _ => (0xF000#16, 0x3000#16)   -- SE_imm
  | .sneImm _ _ => (0xF000#16, 0x4000#16)   -- SNE_imm
  | .seReg _ _ => (0xF00F#16, 0x5000#16)   -- SE_reg
  | .ldImm _ _ => (0xF000#16, 0x6000#16)   -- LD_imm
  | .addImm _ _ => (0xF000#16, 0x7000#16)   -- ADD_imm
  | .ldReg _ _ => (0xF00F#16, 0x8000#16)   -- LD_reg
  | .orReg _ _ => (0xF00F#16, 0x8001#16)   -- OR
  | .andReg _ _ => (0xF00F#16, 0x8002#16)   -- AND
  | .xorReg _ _ => (0xF00F#16, 0x8003#16)   -- XOR
  | .addReg _ _ => (0xF00F#16, 0x8004#16)   -- ADD_reg
  | .sub _ _ => (0xF00F#16, 0x8005#16)   -- SUB
  | .shr _ _ => (0xF00F#16, 0x8006#16)   -- SHR
  | .subn _ _ => (0xF00F#16, 0x8007#16)   -- SUBN
  | .shl _ _ => (0xF00F#16, 0x800E#16)   -- SHL
  | .sneReg _ _ => (0xF00F#16, 0x9000#16)   -- SNE_reg
  | .ldI _ => (0xF000#16, 0xA000#16)   -- LD_I
  | .jpV0 _ => (0xF000#16, 0xB000#16)   -- JP_V0
  | .rnd _ _ => (0xF000#16, 0xC000#16)   -- RND
  | .drw _ _ _ => (0xF000#16, 0xD000#16)   -- DRW
  | .skp _ => (0xF0FF#16, 0xE09E#16)   -- SKP
  | .sknp _ => (0xF0FF#16, 0xE0A1#16)   -- SKNP
  | .ldVxDt _ => (0xF0FF#16, 0xF007#16)   -- LD_Vx_DT
  | .ldVxK _ => (0xF0FF#16, 0xF00A#16)   -- LD_Vx_K
  | .ldDtVx _ => (0xF0FF#16, 0xF015#16)   -- LD_DT_Vx
  | .ldStVx _ => (0xF0FF#16, 0xF018#16)   -- LD_ST_Vx
  | .addIVx _ => (0xF0FF#16, 0xF01E#16)   -- ADD_I_Vx
  | .ldFVx _ => (0xF0FF#16, 0xF029#16)   -- LD_F_Vx
  | .ldBVx _ => (0xF0FF#16, 0xF033#16)   -- LD_B_Vx
  | .ldMiVx _ => (0xF0FF#16, 0xF055#16)   -- LD_mI_Vx
  | .ldVxMi _ => (0xF0FF#16, 0xF065#16)   -- LD_Vx_mI

/-- The encoder puts the row's fixed bits where the table has them, whatever the operands. -/
def Statement (i : Instr) : Prop := encode i &&& (maskAndMatch i).1 = (maskAndMatch i).2

/-- An instruction of format FA keeps its top nibble under the mask. -/
theorem encodeFA_fixed (h : BitVec 4) (nnn : Addr12) : encodeFA h nnn &&& 0xF000#16 = encodeFA h 0 := by
  apply BitVec.eq_of_getLsbD_eq
  intro j hj
  simp only [encodeFA, BitVec.getLsbD_and, BitVec.getLsbD_append]
  interval_cases j <;> simp

/-- Format FXK: the top nibble. -/
theorem encodeFXK_fixed (h : BitVec 4) (x : Reg) (nn : Byte) : encodeFXK h x nn &&& 0xF000#16 = encodeFXK h 0 0 := by
  apply BitVec.eq_of_getLsbD_eq
  intro j hj
  simp only [encodeFXK, BitVec.getLsbD_and, BitVec.getLsbD_append]
  interval_cases j <;> simp

/-- Format FX: the top nibble and the low byte. -/
theorem encodeFX_fixed (h : BitVec 4) (x : Reg) (nn : Byte) : encodeFXK h x nn &&& 0xF0FF#16 = encodeFXK h 0 nn := by
  apply BitVec.eq_of_getLsbD_eq
  intro j hj
  simp only [encodeFXK, BitVec.getLsbD_and, BitVec.getLsbD_append]
  interval_cases j <;> simp

/-- Format FXY: the top and the low nibble. -/
theorem encodeFXY_fixed (h : BitVec 4) (x y : Reg) (n : BitVec 4) :
    encodeFXYN h x y n &&& 0xF00F#16 = encodeFXYN h 0 0 n := by
  apply BitVec.eq_of_getLsbD_eq
  intro j hj
  simp only [encodeFXYN, BitVec.getLsbD_and, BitVec.getLsbD_append]
  interval_cases j <;> simp

/-- Format FXYN: the top nibble. -/
theorem encodeFXYN_fixed (h : BitVec 4) (x y : Reg) (n : BitVec 4) :
    encodeFXYN h x y n &&& 0xF000#16 = encodeFXYN h 0 0 0 := by
  apply BitVec.eq_of_getLsbD_eq
  intro j hj
  simp only [encodeFXYN, BitVec.getLsbD_and, BitVec.getLsbD_append]
  interval_cases j <;> simp

theorem cls : Statement (.cls) := rfl

theorem ret : Statement (.ret) := rfl

theorem jp (nnn : Addr12) : Statement (.jp nnn) :=
  (encodeFA_fixed _ _).trans rfl

theorem call (nnn : Addr12) : Statement (.call nnn) :=
  (encodeFA_fixed _ _).trans rfl

theorem seImm (x : Reg) (nn : Byte) : Statement (.seImm x nn) :=
  (encodeFXK_fixed _ _ _).trans rfl

theorem sneImm (x : Reg) (nn : Byte) : Statement (.sneImm x nn) :=
  (encodeFXK_fixed _ _ _).trans rfl

theorem seReg (x y : Reg) : Statement (.seReg x y) :=
  (encodeFXY_fixed _ _ _ _).trans rfl

theorem ldImm (x : Reg) (nn : Byte) : Statement (.ldImm x nn) :=
  (encodeFXK_fixed _ _ _).trans rfl

theorem addImm (x : Reg) (nn : Byte) : Statement (.addImm x nn) :=
  (encodeFXK_fixed _ _ _).trans rfl

theorem ldReg (x y : Reg) : Statement (.ldReg x y) :=
  (encodeFXY_fixed _ _ _ _).trans rfl

theorem orReg (x y : Reg) : Statement (.orReg x y) :=
  (encodeFXY_fixed _ _ _ _).trans rfl

theorem andReg (x y : Reg) : Statement (.andReg x y) :=
  (encodeFXY_fixed _ _ _ _).trans rfl

theorem xorReg (x y : Reg) : Statement (.xorReg x y) :=
  (encodeFXY_fixed _ _ _ _).trans rfl

theorem addReg (x y : Reg) : Statement (.addReg x y) :=
  (encodeFXY_fixed _ _ _ _).trans rfl

theorem sub (x y : Reg) : Statement (.sub x y) :=
  (encodeFXY_fixed _ _ _ _).trans rfl

theorem shr (x y : Reg) : Statement (.shr x y) :=
  (encodeFXY_fixed _ _ _ _).trans rfl

theorem subn (x y : Reg) : Statement (.subn x y) :=
  (encodeFXY_fixed _ _ _ _).trans rfl

theorem shl (x y : Reg) : Statement (.shl x y) :=
  (encodeFXY_fixed _ _ _ _).trans rfl

theorem sneReg (x y : Reg) : Statement (.sneReg x y) :=
  (encodeFXY_fixed _ _ _ _).trans rfl

theorem ldI (nnn : Addr12) : Statement (.ldI nnn) :=
  (encodeFA_fixed _ _).trans rfl

theorem jpV0 (nnn : Addr12) : Statement (.jpV0 nnn) :=
  (encodeFA_fixed _ _).trans rfl

theorem rnd (x : Reg) (nn : Byte) : Statement (.rnd x nn) :=
  (encodeFXK_fixed _ _ _).trans rfl

theorem drw (x y : Reg) (n : Nat) : Statement (.drw x y n) :=
  (encodeFXYN_fixed _ _ _ _).trans rfl

theorem skp (x : Reg) : Statement (.skp x) :=
  (encodeFX_fixed _ _ _).trans rfl

theorem sknp (x : Reg) : Statement (.sknp x) :=
  (encodeFX_fixed _ _ _).trans rfl

theorem ldVxDt (x : Reg) : Statement (.ldVxDt x) :=
  (encodeFX_fixed _ _ _).trans rfl

theorem ldVxK (x : Reg) : Statement (.ldVxK x) :=
  (encodeFX_fixed _ _ _).trans rfl

theorem ldDtVx (x : Reg) : Statement (.ldDtVx x) :=
  (encodeFX_fixed _ _ _).trans rfl

theorem ldStVx (x : Reg) : Statement (.ldStVx x) :=
  (encodeFX_fixed _ _ _).trans rfl

theorem addIVx (x : Reg) : Statement (.addIVx x) :=
  (encodeFX_fixed _ _ _).trans rfl

theorem ldFVx (x : Reg) : Statement (.ldFVx x) :=
  (encodeFX_fixed _ _ _).trans rfl

theorem ldBVx (x : Reg) : Statement (.ldBVx x) :=
  (encodeFX_fixed _ _ _).trans rfl

theorem ldMiVx (x : Reg) : Statement (.ldMiVx x) :=
  (encodeFX_fixed _ _ _).trans rfl

theorem ldVxMi (x : Reg) : Statement (.ldVxMi x) :=
  (encodeFX_fixed _ _ _).trans rfl

end Sys2Proof.Laws.TableRow
end

