-- ==== Sys2Proof/Laws/Safety.lean ====
section
/-! SUPPORT. Lemmas that join the meanings to the terms of Safety.lean: one elimination principle for an instruction's
next state, the instruction of a Step, register updates that meet, host operations that pass a skip, sprites as pixels. -/

namespace Sys2Proof.Machine

/-! ### Words -/

theorem wrap12_eq_ofNat (w : Word) (n : Nat) (h : w.toNat % 4096 = n % 4096) : wrap12 w = BitVec.ofNat 16 (n % 4096) := by
  apply BitVec.eq_of_toNat_eq
  simp only [State.wrap12_toNat, BitVec.toNat_ofNat]
  omega

/-! ### The instruction of a Step -/

/-- Where an odd PC does not fault. -/
theorem odd_check_false {p : Config.OddPcFetch} {w : Word} (h : w.toNat % 2 = 0 ∨ p = .fetch) :
    (isOdd w && p == .fault) = false := by
  rcases h with h | h
  · simp [isOdd, h]
  · subst h; simp

theorem nextInstr_of_decode {p : Config.OddPcFetch} {s : State} {op : Word} {i : Instr} (hf : s.fault = none)
    (ho : (isOdd s.pc && p == .fault) = false) (hr : s.mem.fetch16 s.pc = .ok op) (hd : decode op = .ok i) :
    nextInstr p s = some i := by
  simp [nextInstr, hf, ho, hr, hd]

theorem execDrawing_of_ne {r : Byte} {i : Instr} {s : State} (h : ∀ x nn, i ≠ .rnd x nn) :
    execDrawing r i s = exec i s := by
  cases i <;> first | rfl | exact absurd rfl (h _ _)

/-! ### What an instruction's next state can be -/

/-- To show `P` of the next state of any instruction: the branching meanings in closed form, and the others, whose
meaning is one update (`cases i` then `cases h` gives it). -/
theorem exec_elim {P : State → Prop} {i : Instr} {s t : State} (h : exec i s = .next t)
    (ret : i = .ret →
      (∀ _ : 0 < s.sp.val, P (State.setPc { s with sp := ⟨s.sp.val - 1, by have := s.sp.isLt; omega⟩ }
        (s.stack[s.sp.val - 1]'(by have := s.sp.isLt; omega)).toWord)) ∧
      (s.sp = 0 → P { s with pc := s.instrAddr, fault := some (.stackUnderflow 0x00EE#16 s.instrAddr) }))
    (call : ∀ n, i = .call n →
      (∀ hs : s.sp.val < 16, P (State.setPc
        { s with stack := s.stack.set s.sp.val (s.pc.setWidth 12), sp := ⟨s.sp.val + 1, Nat.succ_lt_succ hs⟩ }
        n.toWord)) ∧
      (s.sp = 16 → P { s with pc := s.instrAddr, fault := some (.stackOverflow s.opcode s.instrAddr) }))
    (key : ∀ x, i = .ldVxK x →
      (∀ k, firstPressed s.key = some k → P (s.setReg x (BitVec.ofNat 8 k))) ∧
      (firstPressed s.key = none → P (s.setPc (s.pc - 2))))
    (bcd : ∀ x, i = .ldBVx x → P { s with mem := s.mem.setBlock s.i 0 (bcdDigits (s.reg x)) })
    (store : ∀ x, i = .ldMiVx x → P { s with mem := s.mem.setBlock s.i 0 (s.regsUpTo x) })
    (load : ∀ x, i = .ldVxMi x → P { s with
      v := loadRegs s.v 0 ((List.range (x.val + 1)).map fun k => s.mem.byteAt (effAddr s.i (0 + k))) })
    (draw : ∀ x y n, i = .drw x y n → ∀ d,
      d = Display.plotAll (s.disp, false) (Display.pixels (s.reg x).toNat (s.reg y).toNat 0 (spriteRows s n)) →
      P ({ s with disp := d.1 }.setReg .VF (flagByte d.2)))
    (rest : (∀ n, i ≠ .call n) → i ≠ .ret → (∀ x, i ≠ .ldVxK x ∧ i ≠ .ldBVx x ∧ i ≠ .ldMiVx x ∧ i ≠ .ldVxMi x) →
      (∀ x y n, i ≠ .drw x y n) → exec i s = .next t → P t) : P t := by
  cases i
  case ret =>
    by_cases hs : 0 < s.sp.val
    · rw [exec, execRet_of_pos s hs] at h; cases h; exact (ret rfl).1 hs
    · have h0 : s.sp = 0 := Fin.ext (by simpa using hs)
      rw [exec, execRet_empty s h0] at h; cases h; exact (ret rfl).2 h0
  case call n =>
    by_cases hs : s.sp.val < 16
    · rw [exec, execCall_of_lt n s hs] at h; cases h; exact (call n rfl).1 hs
    · have h0 : s.sp = 16 := Fin.ext (by have := s.sp.isLt; simp; omega)
      rw [exec, execCall_full n s h0] at h; cases h; exact (call n rfl).2 h0
  case ldVxK x =>
    rw [exec] at h
    cases hk : firstPressed s.key with
    | none => rw [execLdVxK_none x s hk] at h; cases h; exact (key x rfl).2 hk
    | some k => rw [execLdVxK_some x s hk] at h; cases h; exact (key x rfl).1 k hk
  case ldBVx x => rw [exec, execLdBVx, storeAtI_eq] at h; cases h; exact bcd x rfl
  case ldMiVx x => rw [exec, execLdMiVx, storeAtI_eq] at h; cases h; exact store x rfl
  case ldVxMi x => rw [exec, execLdVxMi_eq] at h; cases h; exact load x rfl
  case drw x y n => rw [exec, execDrw_eq] at h; cases h; exact draw x y n rfl _ rfl
  all_goals exact rest (by simp) (by simp) (by simp) (by simp) h

/-! ### Register updates that meet -/

theorem setReg_setReg_same (s : State) (r : Reg) (a b : Byte) : (s.setReg r a).setReg r b = s.setReg r b := by
  simp [State.setReg]

theorem setReg_comm (s : State) {r x : Reg} (a b : Byte) (h : r ≠ x) :
    (s.setReg r b).setReg x a = (s.setReg x a).setReg r b := by
  simp only [State.setReg]
  congr 1
  exact Vector.set_comm _ _ (fun e => h (Fin.ext e))

/-- A value given to `r` beforehand is lost once `r` is given it afterwards. -/
theorem setReg_last_wins (s : State) (r x : Reg) (a b : Byte) :
    ((s.setReg r b).setReg x a).setReg r b = (s.setReg x a).setReg r b := by
  by_cases h : r = x
  · subst h; simp only [setReg_setReg_same]
  · rw [setReg_comm s a b h, setReg_setReg_same]

theorem skipIf_setReg (s : State) (r : Reg) (b : Byte) (c : Bool) :
    ((s.setReg r b).skipIf c).setReg r b = (s.skipIf c).setReg r b := by
  cases c
  · exact setReg_setReg_same _ _ _ _
  · simp [State.skipIf, State.setPc, State.setReg]

/-! ### Host operations and skips -/

theorem tick60_skipIf (s : State) (c : Bool) : (tick60 s).skipIf c = tick60 (s.skipIf c) := by
  cases c <;> rfl

theorem setKeys_skipIf (k : Keys) (s : State) (c : Bool) : (setKeys k s).skipIf c = setKeys k (s.skipIf c) := by
  cases c <;> rfl

/-! ### Sprites -/

@[simp] theorem spriteRows_length (s : State) (n : Nat) : (spriteRows s n).length = n := by
  simp [spriteRows]

/-- The pixels DRW plots are the cells under a set sprite bit. -/
theorem mem_pixels_iff_spritePixel {px py : Nat} {rows : List Byte} (h : rows.length ≤ 32) (cx : Fin 64) (cy : Fin 32) :
    (cx, cy) ∈ Display.pixels px py 0 rows ↔ spritePixel px py rows cx cy = true := by
  rw [Display.mem_pixels]
  have hx := cx.isLt
  have hy := cy.isLt
  simp only [spritePixel, Bool.and_eq_true, decide_eq_true_eq]
  constructor
  · rintro ⟨k, hk, j, hj, hb, hp⟩
    obtain ⟨h1, h2⟩ := Prod.mk.inj hp
    have h1' := congrArg Fin.val h1
    have h2' := congrArg Fin.val h2
    rw [Display.wrapX_val] at h1'
    rw [Display.wrapY_val] at h2'
    have e1 : (cx.val + 64 - px % 64) % 64 = j := by omega
    have e2 : (cy.val + 32 - py % 32) % 32 = k := by omega
    rw [e1, e2]
    exact ⟨hj, by simpa [hk] using hb⟩
  · rintro ⟨hj, hb⟩
    have hk : (cy.val + 32 - py % 32) % 32 < rows.length := by
      by_contra hc
      rw [List.getElem?_eq_none (by omega)] at hb
      simp at hb
    refine ⟨_, hk, _, hj, by simpa [hk] using hb, ?_⟩
    refine Prod.ext (Fin.ext ?_) (Fin.ext ?_)
    · rw [Display.wrapX_val]; simp only; omega
    · rw [Display.wrapY_val]; simp only; omega

/-- A sprite covers some cell exactly when some row of it has a set bit. -/
theorem exists_spritePixel_iff {px py : Nat} {rows : List Byte} (h : rows.length ≤ 32) :
    (∃ cx cy, spritePixel px py rows cx cy = true) ↔ ∃ b ∈ rows, b ≠ 0 := by
  constructor
  · rintro ⟨cx, cy, hp⟩
    rw [← mem_pixels_iff_spritePixel h, Display.mem_pixels] at hp
    obtain ⟨k, hk, j, hj, hb, -⟩ := hp
    refine ⟨_, List.getElem_mem hk, fun h0 => ?_⟩
    rw [h0] at hb
    simp at hb
  · rintro ⟨b, hb, h0⟩
    obtain ⟨k, hk, rfl⟩ := List.getElem_of_mem hb
    have : ∃ i, i < 8 ∧ (rows[k]).getLsbD i = true := by
      by_contra hc
      apply h0
      apply BitVec.eq_of_getLsbD_eq
      intro i hi
      have : ¬ (rows[k]).getLsbD i = true := fun h => hc ⟨i, hi, h⟩
      simpa using this
    obtain ⟨i, hi, hbi⟩ := this
    refine ⟨wrapX px (7 - i), wrapY py (0 + k), ?_⟩
    rw [← mem_pixels_iff_spritePixel h, Display.mem_pixels]
    exact ⟨k, hk, 7 - i, by omega, by rwa [show 7 - (7 - i) = i by omega], rfl⟩

end Sys2Proof.Machine
end

