-- ==== Sys2Proof/Tests/Slice0.lean ====
section
/-! SUPPORT. Tests: the checks of WellFormed, words written out from the spec's encodings, one step for the vectors of
spec/95_test_vectors.md (named in each test by their id), and for each obligation with hypotheses a case that meets
them all (`witness_…`). Expected values are the spec's, not the model's. -/

namespace Sys2Proof.Tests

open Sys2Proof.Machine

/-! ### Helpers -/

/-- What `f` shows of the state an answer goes on in. -/
def look {α : Type} (f : State → α) : Result → Option α
  | .next t => some (f t)
  | .fault _ => none
  | .refused _ => none

/-- `s` with the word `w` at address `a` and PC there. -/
def placed (a : Word) (w : Nat) (s : State) : State := State.withFetchWord { s with pc := a } 16 w

/-- What `f` shows of the state after one Step of the word `w` at address `a`. -/
def after {α : Type} (a : Word) (w : Nat) (s : State) (f : State → α) : Option α := look f (step (placed a w s))

/-- Reset with some registers set. -/
def regs (bs : List (Reg × Byte)) : State := bs.foldl (fun s b => s.setReg b.1 b.2) State.reset

/-- Reset with I set and bytes laid there. -/
def withBytes (i : Nat) (bytes : List Byte) (s : State) : State :=
  { s with i := BitVec.ofNat 16 i, mem := s.mem.layBytes i bytes }

/-- Reset keys with some pressed. -/
def keys (ks : List (Fin 16)) : Keys := ks.foldl (fun (k : Keys) (j : Fin 16) => k.set j true) State.reset.key

/-- Row `y` of the display as a number, column 0 its most significant bit. -/
def rowBits (d : Display) (y : Fin 32) : Nat := d[y].toList.foldl (fun a b => 2 * a + b.toNat) 0

/-! ### WellFormed -/

/-- R93: n of DXYN is a nibble; a height of 16 has no encoding. -/
theorem test_wellFormed_refuses_drw_16 : Instr.wellFormed (.drw 1 2 16) = false := by decide

theorem test_wellFormed_accepts_drw_15 : Instr.wellFormed (.drw 1 2 15) = true := by decide

theorem test_wellFormed_accepts_drw_0 : Instr.wellFormed (.drw 15 15 0) = true := by decide

/-! ### Decoding words written out from R95's table -/

theorem test_decode_control :
    decodeTableWord 16 0b0000000011101110 = some .ret ∧
    decodeTableWord 16 0b0001101010111100 = some (.jp 0xABC#12) ∧
    decodeTableWord 16 0b0010101010111100 = some (.call 0xABC#12) ∧
    decodeTableWord 16 0b0011101000010010 = some (.seImm 10 0x12#8) ∧
    decodeTableWord 16 0b0100101000010010 = some (.sneImm 10 0x12#8) ∧
    decodeTableWord 16 0b0101000100100000 = some (.seReg 1 2) ∧
    decodeTableWord 16 0b1001000100100000 = some (.sneReg 1 2) ∧
    decodeTableWord 16 0b1011111111111111 = some (.jpV0 0xFFF#12) := by decide

theorem test_decode_alu :
    decodeTableWord 16 0b0110111100000000 = some (.ldImm 15 0x00#8) ∧
    decodeTableWord 16 0b0111000100100011 = some (.addImm 1 0x23#8) ∧
    decodeTableWord 16 0b1000000100100000 = some (.ldReg 1 2) ∧
    decodeTableWord 16 0b1000000100100001 = some (.orReg 1 2) ∧
    decodeTableWord 16 0b1000000100100010 = some (.andReg 1 2) ∧
    decodeTableWord 16 0b1000000100100011 = some (.xorReg 1 2) ∧
    decodeTableWord 16 0b1000000100100100 = some (.addReg 1 2) ∧
    decodeTableWord 16 0b1000000100100101 = some (.sub 1 2) ∧
    decodeTableWord 16 0b1000000100100110 = some (.shr 1 2) ∧
    decodeTableWord 16 0b1000000100100111 = some (.subn 1 2) ∧
    decodeTableWord 16 0b1000000100101110 = some (.shl 1 2) ∧
    decodeTableWord 16 0b1100000111111111 = some (.rnd 1 0xFF#8) := by decide

theorem test_decode_index_and_memory :
    decodeTableWord 16 0b1010000100100011 = some (.ldI 0x123#12) ∧
    decodeTableWord 16 0b1111000100011110 = some (.addIVx 1) ∧
    decodeTableWord 16 0b1111000100101001 = some (.ldFVx 1) ∧
    decodeTableWord 16 0b1111000100110011 = some (.ldBVx 1) ∧
    decodeTableWord 16 0b1111000101010101 = some (.ldMiVx 1) ∧
    decodeTableWord 16 0b1111000101100101 = some (.ldVxMi 1) := by decide

theorem test_decode_display :
    decodeTableWord 16 0b0000000011100000 = some .cls ∧
    decodeTableWord 16 0b1101000100100101 = some (.drw 1 2 5) ∧
    decodeTableWord 16 0b1101000100100000 = some (.drw 1 2 0) := by decide

theorem test_decode_input_and_timer :
    decodeTableWord 16 0b1110000110011110 = some (.skp 1) ∧
    decodeTableWord 16 0b1110000110100001 = some (.sknp 1) ∧
    decodeTableWord 16 0b1111000100000111 = some (.ldVxDt 1) ∧
    decodeTableWord 16 0b1111000100001010 = some (.ldVxK 1) ∧
    decodeTableWord 16 0b1111000100010101 = some (.ldDtVx 1) ∧
    decodeTableWord 16 0b1111000100011000 = some (.ldStVx 1) := by decide

/-- The Unknown rows of the decode table of 95_test_vectors.md. -/
theorem test_decode_unknown :
    [0x0000, 0x0123, 0x00FF, 0x5121, 0x8128, 0x8129, 0x812A, 0x812B, 0x812C, 0x812D, 0x812F, 0x9AB1, 0xE19F, 0xF100,
      0xF1FF, 0xFFFF].map (decodeTableWord 16) = List.replicate 16 none := by decide

/-- R62, R90: the first byte is the more significant; the bytes that follow are left. -/
theorem test_decodeBytes :
    (match decodeBytes [0x12#8, 0x34#8, 0x56#8] with | .ok p => some p | .error _ => none) =
      some (.jp 0x234#12, [0x56#8]) := by decide

/-! ### Control flow -/

theorem test_C1_ret :
    after 0x300#16 0x00EE { State.reset with sp := 1, stack := State.reset.stack.set 0 0x202#12 }
      (fun t => (t.sp, t.pc, t.fault)) = some (0, 0x202#16, none) := by decide

theorem test_C2_ret_underflow :
    after 0x200#16 0x00EE State.reset (fun t => (t.sp, t.pc, t.fault)) =
      some (0, 0x200#16, some (.stackUnderflow 0x00EE#16 0x200#16)) := by decide

theorem test_C3_jp : after 0x200#16 0x1228 State.reset (fun t => t.pc) = some 0x228#16 := by decide

theorem test_C7_call_at_the_top :
    after 0xFFE#16 0x2300 State.reset (fun t => (t.stack[0], t.sp, t.pc)) = some (0x000#12, 1, 0x300#16) := by decide

theorem test_C6_call_overflow :
    after 0x400#16 0x2500 { State.reset with sp := 16 } (fun t => (t.pc, t.sp, t.stack, t.fault)) =
      some (0x400#16, 16, State.reset.stack, some (.stackOverflow 0x2500#16 0x400#16)) := by decide

theorem test_C5_call_last_entry :
    after 0x400#16 0x2500 { State.reset with sp := 15 } (fun t => (t.stack[15], t.sp, t.pc, t.fault)) =
      some (0x402#12, 16, 0x500#16, none) := by decide

theorem test_C8_se_taken : after 0x210#16 0x3A05 (regs [(10, 5#8)]) (fun t => t.pc) = some 0x214#16 := by decide

theorem test_C19_se_taken_wraps : after 0xFFE#16 0x3000 State.reset (fun t => t.pc) = some 0x002#16 := by decide

theorem test_C10_sne : after 0x210#16 0x4A05 (regs [(10, 5#8)]) (fun t => t.pc) = some 0x212#16 := by decide

theorem test_C11_se_reg : after 0x200#16 0x5120 (regs [(1, 7#8), (2, 7#8)]) (fun t => t.pc) = some 0x204#16 := by decide

theorem test_C12_se_reg : after 0x200#16 0x5120 (regs [(1, 7#8), (2, 8#8)]) (fun t => t.pc) = some 0x202#16 := by decide

theorem test_C14_sne_reg : after 0x200#16 0x9120 (regs [(1, 7#8), (2, 8#8)]) (fun t => t.pc) = some 0x204#16 := by decide

theorem test_C15_sne_reg_same : after 0x200#16 0x9110 (regs [(1, 7#8)]) (fun t => t.pc) = some 0x202#16 := by decide

theorem test_C16_jpV0 : after 0x200#16 0xB300 (regs [(0, 0x10#8)]) (fun t => t.pc) = some 0x310#16 := by decide

theorem test_C17_jpV0_wraps : after 0x200#16 0xBFFF (regs [(0, 0xFF#8)]) (fun t => t.pc) = some 0x0FE#16 := by decide

/-! ### ALU: V[x] and VF after -/

theorem test_A4_add :
    after 0x200#16 0x8014 (regs [(0, 0xFF#8), (1, 0xFF#8)]) (fun t => (t.reg 0, t.reg .VF)) =
      some (0xFE#8, 1#8) := by decide

theorem test_F1_add_to_VF :
    after 0x200#16 0x8F14 (regs [(15, 0xFF#8), (1, 1#8)]) (fun t => t.reg .VF) = some 1#8 := by decide

theorem test_S2_sub :
    after 0x200#16 0x8015 (regs [(0, 3#8), (1, 5#8), (15, 0x55#8)]) (fun t => (t.reg 0, t.reg .VF)) =
      some (0xFE#8, 0#8) := by decide

theorem test_S3_sub_equal :
    after 0x200#16 0x8015 (regs [(0, 7#8), (1, 7#8)]) (fun t => (t.reg 0, t.reg .VF)) = some (0#8, 1#8) := by decide

theorem test_N1_subn :
    after 0x200#16 0x8017 (regs [(0, 3#8), (1, 5#8)]) (fun t => (t.reg 0, t.reg .VF)) = some (2#8, 1#8) := by decide

theorem test_N3_subn_equal :
    after 0x200#16 0x8017 (regs [(0, 7#8), (1, 7#8)]) (fun t => (t.reg 0, t.reg .VF)) = some (0#8, 1#8) := by decide

theorem test_H5_shr_ignores_y :
    after 0x200#16 0x8016 (regs [(0, 0x80#8), (1, 3#8), (15, 0x55#8)]) (fun t => (t.reg 0, t.reg .VF)) =
      some (0x40#8, 0#8) := by decide

theorem test_F3_shr_of_VF :
    after 0x200#16 0x8FF6 (regs [(15, 2#8)]) (fun t => t.reg .VF) = some 0#8 := by decide

theorem test_H6_shl :
    after 0x200#16 0x800E (regs [(0, 0x81#8)]) (fun t => (t.reg 0, t.reg .VF)) = some (2#8, 1#8) := by decide

theorem test_H10_shl_ignores_y :
    after 0x200#16 0x801E (regs [(1, 0xFF#8), (15, 0x55#8)]) (fun t => (t.reg 0, t.reg .VF)) =
      some (0#8, 0#8) := by decide

theorem test_L1_or :
    after 0x200#16 0x8011 (regs [(0, 0xF0#8), (1, 0x3C#8), (15, 0x55#8)]) (fun t => (t.reg 0, t.reg .VF)) =
      some (0xFC#8, 0x55#8) := by decide

theorem test_L2_and :
    after 0x200#16 0x8012 (regs [(0, 0xF0#8), (1, 0x3C#8), (15, 0x55#8)]) (fun t => (t.reg 0, t.reg .VF)) =
      some (0x30#8, 0x55#8) := by decide

theorem test_L3_xor :
    after 0x200#16 0x8013 (regs [(0, 0xF0#8), (1, 0x3C#8), (15, 0x55#8)]) (fun t => (t.reg 0, t.reg .VF)) =
      some (0xCC#8, 0x55#8) := by decide

theorem test_L5_ld :
    after 0x200#16 0x8010 (regs [(0, 0x12#8), (1, 0x34#8)]) (fun t => (t.reg 0, t.reg 1)) =
      some (0x34#8, 0x34#8) := by decide

theorem test_I1_add_imm_no_flag :
    after 0x200#16 0x7001 (regs [(0, 0xFF#8), (15, 0x55#8)]) (fun t => (t.reg 0, t.reg .VF)) =
      some (0#8, 0x55#8) := by decide

theorem test_I2_ld_imm : after 0x200#16 0x6005 State.reset (fun t => t.reg 0) = some 5#8 := by decide

/-- R3, with the byte AB drawn. -/
theorem test_R3_rnd :
    look (fun t => (t.reg 3, t.reg .VF, t.pc)) (stepDrawing .fault 0xAB#8 (placed 0x200#16 0xC30F (regs [(15, 0x55#8)]))) =
      some (0x0B#8, 0x55#8, 0x202#16) := by decide

/-! ### Index and memory -/

theorem test_M1_ld_I : after 0x200#16 0xA123 State.reset (fun t => t.i) = some 0x123#16 := by decide

theorem test_M2_add_I_wraps :
    after 0x200#16 0xF01E { regs [(0, 1#8), (15, 0x55#8)] with i := 0xFFF#16 } (fun t => (t.i, t.reg .VF)) =
      some (0#16, 0x55#8) := by decide

theorem test_M4_ld_F : after 0x200#16 0xF029 (regs [(0, 0xFA#8)]) (fun t => t.i) = some 0x032#16 := by decide

/-- W5. -/
theorem test_W5_bcd :
    after 0x200#16 0xF033 { regs [(0, 0xFF#8)] with i := 0x300#16 }
      (fun t => ([0x300, 0x301, 0x302].map t.mem.byteAt, t.i)) = some ([2#8, 5#8, 5#8], 0x300#16) := by decide

theorem test_M6_bcd_wraps :
    after 0x200#16 0xF033 { regs [(0, 123#8)] with i := 0xFFF#16 }
      (fun t => ([0xFFF, 0x000, 0x001].map t.mem.byteAt, t.i)) = some ([1#8, 2#8, 3#8], 0xFFF#16) := by decide

theorem test_M7_store_V0 :
    after 0x200#16 0xF055 { regs [(0, 0xAA#8), (1, 0xBB#8)] with i := 0x300#16 }
      (fun t => ([0x300, 0x301].map t.mem.byteAt, t.i)) = some ([0xAA#8, 0#8], 0x300#16) := by decide

theorem test_M8_store_all_wraps :
    after 0x200#16 0xFF55 { regs [(7, 7#8), (8, 8#8), (15, 15#8)] with i := 0xFF8#16 }
      (fun t => [0xFFF, 0x000, 0x007].map t.mem.byteAt) = some [7#8, 8#8, 15#8] := by decide

theorem test_M9_load :
    after 0x200#16 0xF265 (withBytes 0x300 [2#8, 5#8, 5#8] (regs [(3, 0x77#8)]))
      (fun t => (t.reg 0, t.reg 1, t.reg 2, t.reg 3, t.i)) = some (2#8, 5#8, 5#8, 0x77#8, 0x300#16) := by decide

/-! ### Display -/

theorem test_G1_cls :
    after 0x200#16 0x00E0 { regs [(15, 0x55#8)] with disp := State.reset.disp.flip 63 31 }
      (fun t => (t.disp.cell 63 31, t.reg .VF)) = some (false, 0x55#8) := by decide

theorem test_G2_glyph :
    after 0x200#16 0xD125 State.reset (fun t => ([0, 1, 2, 3, 4, 5].map (rowBits t.disp), t.reg .VF)) =
      some ([0xF000000000000000, 0x9000000000000000, 0x9000000000000000, 0x9000000000000000, 0xF000000000000000, 0],
        0#8) := by decide

/-- W4: the row at x = 63, y = 31 wraps to columns 0 .. 6. -/
theorem test_W4_wraps :
    after 0x200#16 0xD121 (withBytes 0x300 [0xFF#8] (regs [(1, 63#8), (2, 31#8)]))
      (fun t => ([30, 31, 0].map (rowBits t.disp), t.reg .VF)) = some ([0, 0xFE00000000000001, 0], 0#8) := by decide

/-- R201 against the last clause of R204 (log 11): the first draw erases the one cell it touches and reports it, so the
second draw, on a clear display, reports no collision. -/
theorem test_second_draw_need_not_collide :
    let s := withBytes 0x300 [0x80#8] State.reset
    look (fun t => (t.disp.cell 0 0, t.reg .VF)) (exec (.drw 1 2 1) { s with disp := s.disp.flip 0 0 }) = some (false, 1#8) ∧
    look (fun t => (t.disp.cell 0 0, t.reg .VF)) (exec (.drw 1 2 1) s) = some (true, 0#8) := by decide

/-! ### Input and timers -/

theorem test_K1_skp :
    after 0x200#16 0xE19E { regs [(1, 0x35#8)] with key := keys [5] } (fun t => t.pc) = some 0x204#16 := by decide

theorem test_K2_skp : after 0x200#16 0xE19E (regs [(1, 0x35#8)]) (fun t => t.pc) = some 0x202#16 := by decide

theorem test_K3_sknp : after 0x200#16 0xE1A1 (regs [(1, 5#8)]) (fun t => t.pc) = some 0x204#16 := by decide

theorem test_K4_lowest_key :
    after 0x200#16 0xF00A { State.reset with key := keys [9, 3] } (fun t => (t.reg 0, t.pc)) =
      some (3#8, 0x202#16) := by decide

theorem test_K7_key_wait_at_0 :
    after 0x000#16 0xF00A (regs [(0, 0x55#8)]) (fun t => (t.reg 0, t.pc)) = some (0x55#8, 0x000#16) := by decide

theorem test_T1_ld_DT : after 0x200#16 0xF307 { State.reset with dt := 0x3C#8 } (fun t => t.reg 3) = some 0x3C#8 := by decide

theorem test_T2_set_DT :
    after 0x200#16 0xF015 (regs [(0, 0x3C#8)]) (fun t => (t.dt, t.st)) = some (0x3C#8, 0#8) := by decide

theorem test_T4_set_ST :
    after 0x200#16 0xF218 { State.reset with st := 5#8 } (fun t => (t.st, soundActive t)) = some (0#8, false) := by decide

theorem test_T5_T7_tick :
    let t := tick60 { State.reset with dt := 0xFF#8, st := 2#8 }
    ((tick60 State.reset).dt, (tick60 State.reset).st, t.dt, t.st, soundActive t) = (0#8, 0#8, 0xFE#8, 1#8, true) := by decide

theorem test_setKeys_releases_and_presses :
    let s := setKeys (keys [15]) { State.reset with key := keys [3] }
    (s.pressed 3, s.pressed 15) = (false, true) := by decide

/-- R42: the live stack is STACK[0..SP-1]; a popped entry is not shown. -/
theorem test_snapshot_stack :
    (snapshot { State.reset with sp := 1, stack := (State.reset.stack.set 0 0x202#12).set 1 0x304#12 }).stack =
      [0x202#12] := by decide

/-! ### Cycle and faults -/

theorem test_W9_unknown :
    after 0x200#16 0xFFFF State.reset (fun t => (t.opcode, t.pc, t.fault)) =
      some (0xFFFF#16, 0x200#16, some (.unknownOpcode 0xFFFF#16 0x200#16)) := by decide

theorem test_E4_misaligned :
    after 0x201#16 0x6005 State.reset (fun t => (t.opcode, t.pc, t.reg 0, t.fault)) =
      some (0#16, 0x201#16, 0#8, some (.misalignedFetch 0x201#16)) := by decide

/-- C18: with ODD_PC_FETCH = fetch the odd address is fetched. -/
theorem test_C18_odd_fetch :
    look (fun t => (t.reg 0, t.pc)) (stepWith .fetch (placed 0x301#16 0x6005 State.reset)) =
      some (5#8, 0x303#16) := by decide

theorem test_E5_pc_wraps :
    after 0xFFE#16 0x6007 State.reset (fun t => (t.reg 0, t.pc)) = some (7#8, 0x000#16) := by decide

/-- W8. -/
theorem test_W8_image_too_large :
    construct (List.replicate 3585 0xFF#8) defaultFont = .error (.imageTooLarge 3585) := by
  rw [construct, if_pos (by rw [List.length_replicate]; decide), List.length_replicate]

/-! ### Witnesses: concrete cases that meet all the hypotheses of an obligation -/

/-- A state about to run the word `w` at `a`, from reset. -/
abbrev ready (a : Word) (w : Nat) : State := placed a w State.reset

/-- The three premises most statements about a Step share. -/
abbrev runs (p : Config.OddPcFetch) (s : State) (i : Instr) : Prop :=
  s.fault = none ∧ (s.pc.toNat % 2 = 0 ∨ p = .fetch) ∧
    ∃ op, s.mem.fetch16 s.pc = .ok op ∧ decode op = .ok i

theorem witness_DecodeOfEncodeIsTheInstruction :
    Instr.wellFormed (.drw 15 15 15) = true ∧ Instr.wellFormed (.drw 0 0 0) = true ∧ Instr.wellFormed .cls = true := by
  decide

theorem witness_EncodeOfDecodeIsTheWord :
    decode 0xDFFF#16 = .ok (.drw 15 15 15) ∧ decode 0x8016#16 = .ok (.shr 0 1) := ⟨rfl, rfl⟩

/-- Both ends of the range: the last address, whose second byte is at 0, and the first. -/
theorem witness_FetchIsBigEndian : (0xFFF#16).toNat < 4096 ∧ (0x000#16).toNat < 4096 := by decide

/-- An even PC, and an odd one under fetch. -/
theorem witness_StepPerformsTheDecodedInstruction :
    runs .fault (ready 0xFFE#16 0x6005) (.ldImm 0 5#8) ∧ runs .fetch (ready 0x201#16 0x6005) (.ldImm 0 5#8) :=
  ⟨⟨rfl, .inl rfl, _, rfl, rfl⟩, rfl, .inr rfl, _, rfl, rfl⟩

theorem witness_StepOnUnknownWordFaults :
    let s := ready 0x200#16 0x5121
    s.fault = none ∧ (s.pc.toNat % 2 = 0 ∨ Config.OddPcFetch.fault = .fetch) ∧ s.mem.fetch16 s.pc = .ok 0x5121#16 ∧
      decode 0x5121#16 = .error .seRegNibble := ⟨rfl, .inl rfl, rfl, rfl⟩

theorem witness_StepAtOddPcFaults :
    (ready 0x201#16 0x6005).fault = none ∧ (ready 0x201#16 0x6005).pc.toNat % 2 = 1 := by decide

/-- A faulted state that fits: OPCODE and PC are those of the record. -/
abbrev faulted : State := { State.reset with fault := some (.unknownOpcode 0x0000#16 0x200#16) }

theorem witness_FaultedStepAnswersItsFault : faulted.fault = some (.unknownOpcode 0x0000#16 0x200#16) := rfl

/-- Each clause: MisalignedFetch, and a fault with a fetched word (StackOverflow, by a call at the last even address). -/
theorem witness_FaultsArePrecise :
    ((ready 0x201#16 0x6005).Inv ∧ ∃ t, stepWith .fault (ready 0x201#16 0x6005) = .next t ∧
      t.fault = some (.misalignedFetch 0x201#16)) ∧
    let s := placed 0xFFE#16 0x2300 { State.reset with sp := 16 }
    s.Inv ∧ ∃ t, stepWith .fault s = .next t ∧ t.fault = some (.stackOverflow 0x2300#16 0xFFE#16) :=
  ⟨⟨by decide, _, rfl, rfl⟩, by decide, _, rfl, rfl⟩

/-- With no fault recorded and with one. -/
theorem witness_EveryOperationKeepsTheFaultRecordFitting :
    (State.reset.Inv ∧ State.reset.faultFits = true) ∧ faulted.Inv ∧ faulted.faultFits = true := by decide

/-- A Step of an instruction that reads memory at the top, and the first address out of range. -/
theorem witness_AddressOutOfRangeIsCheckedAndNeverReached :
    (let s := placed 0xFFE#16 0xFF65 { State.reset with i := 0xFFF#16 }
     s.Inv ∧ ∃ t, stepWith .fetch s = .next t) ∧ 4096 ≤ 4096 := ⟨⟨by decide, _, rfl⟩, by decide⟩

theorem witness_OnlyRndReadsTheRandomByte :
    ∀ x nn, nextInstr .fault (ready 0x200#16 0x6005) ≠ some (.rnd x nn) := by
  intro x nn
  rw [show nextInstr .fault (ready 0x200#16 0x6005) = some (.ldImm 0 5#8) from rfl]
  simp

theorem witness_StepKeepsTheInvariant :
    (ready 0xFFE#16 0xFF55).Inv ∧ ∃ t, stepWith .fault (ready 0xFFE#16 0xFF55) = .next t := ⟨by decide, _, rfl⟩

theorem witness_EveryRunFromConstructMeetsTheInvariant : ∃ s, construct [0x60#8, 0x05#8] defaultFont = .ok s := ⟨_, rfl⟩

theorem witness_FaultedMachineStaysFaulted :
    ∃ f, (runOps .fault faulted [.step 0, .tick60, .setKeys (keys [15])]).fault = some f ∧ faulted.fault = some f :=
  ⟨_, rfl, rfl⟩

/-- An instruction that loads neither timer, and the two that load one. -/
theorem witness_StepNeverCountsTimersDown :
    (∃ t, stepWith .fault (ready 0x200#16 0x6005) = .next t) ∧ (∃ t, stepWith .fault (ready 0x200#16 0xF015) = .next t) ∧
    ∃ t, stepWith .fault (ready 0x200#16 0xF018) = .next t := ⟨⟨_, rfl⟩, ⟨_, rfl⟩, _, rfl⟩

/-- A writer of the display, a writer of memory, and an instruction that is neither. -/
theorem witness_DisplayAndMemoryWriters :
    (∃ t, exec .cls State.reset = .next t) ∧ (∃ t, exec (.ldMiVx 15) State.reset = .next t) ∧
    ∃ t, exec (.addReg 0 1) State.reset = .next t := ⟨⟨_, rfl⟩, ⟨_, rfl⟩, _, rfl⟩

/-- A writer of I, a writer of the stack, and an instruction that is neither. -/
theorem witness_IndexStackKeyAndOpcodeWriters :
    (∃ t, exec (.addIVx 0) State.reset = .next t) ∧ (∃ t, exec (.call 0xFFF#12) State.reset = .next t) ∧
    ∃ t, exec (.addReg 0 1) State.reset = .next t := ⟨⟨_, rfl⟩, ⟨_, rfl⟩, _, rfl⟩

/-- The register just above a block load, and VE beside an instruction that writes VF. -/
theorem witness_RegistersWrittenAreTheTables :
    ((∃ t, exec (.ldVxMi 14) State.reset = .next t) ∧ writesReg (.ldVxMi 14) 15 = false) ∧
    (∃ t, exec (.addReg 0 1) State.reset = .next t) ∧ writesReg (.addReg 0 1) 14 = false :=
  ⟨⟨⟨_, rfl⟩, rfl⟩, ⟨_, rfl⟩, rfl⟩

/-- V[y] of a shift, the register just above a block store, and VF for an ALU operation that only writes it. -/
theorem witness_UnreadRegisterHasNoInfluence :
    readsReg (.shr 0 1) 1 = false ∧ readsReg (.ldMiVx 14) 15 = false ∧ readsReg (.addReg 0 1) 15 = false := by decide

/-- No fault and an instruction; a fault in an instruction; a fault before one. -/
theorem witness_PcAfterEveryStep :
    (∃ t, (ready 0xFFE#16 0x3000).pc.toNat < 4096 ∧ stepWith .fault (ready 0xFFE#16 0x3000) = .next t ∧ t.fault = none) ∧
    (∃ t, stepWith .fault (ready 0xFFE#16 0x00EE) = .next t ∧ t.fault = some (.stackUnderflow 0x00EE#16 0xFFE#16)) ∧
    ∃ t, stepWith .fault (ready 0xFFF#16 0x00EE) = .next t ∧ t.fault = some (.misalignedFetch 0xFFF#16) :=
  ⟨⟨_, by decide, rfl, rfl⟩, ⟨_, rfl, rfl⟩, _, rfl, rfl⟩

/-- The emptiest and the fullest stack that has room. -/
theorem witness_CallPushesAndJumps :
    State.reset.sp.val < 16 ∧ State.sp { State.reset with sp := 15 } < (16 : Fin 17) := by decide

/-- The lowest and the highest entry. -/
theorem witness_RetPopsIntoPc :
    (State.sp { State.reset with sp := 1 }).val = (0 : Fin 16).val + 1 ∧
    (State.sp { State.reset with sp := 16 }).val = (15 : Fin 16).val + 1 := by decide

/-- A full and an empty stack, the instruction at the last even address, PC wrapped to 0. -/
theorem witness_StackBoundsFault :
    (0xFFE#16).toNat < 4096 ∧ (State.pc { State.reset with pc := 0#16 }).toNat = ((0xFFE#16).toNat + 2) % 4096 ∧
    (State.sp { State.reset with pc := 0#16, sp := 16 }).val = 16 ∧
    (State.sp { State.reset with pc := 0#16 }).val = 0 := by decide

/-- Just below the bound and at it, for a call and for a return. -/
theorem witness_StackFaultsExactlyAtTheBounds :
    State.fault { State.reset with sp := 15 } = none ∧ State.fault { State.reset with sp := 16 } = none ∧
    State.fault { State.reset with sp := 1 } = none ∧ State.reset.fault = none := by decide

/-- The fullest stack that has room, PC at the last address; an entry below the stale one, and one above a stale one. -/
theorem witness_RetAfterCallResumes :
    ((14 : Fin 16).val ≠ (State.sp { State.reset with sp := 15 }).val ∧ (15 : Fin 16).val ≠ State.reset.sp.val) ∧
    (State.sp { State.reset with sp := 15, pc := 0xFFF#16 }).val < 16 ∧
    (State.pc { State.reset with sp := 15, pc := 0xFFF#16 }).toNat < 4096 := by decide

/-- The highest key, pressed and not, with a high nibble that is ignored. -/
theorem witness_KeySkips :
    let s := { regs [(1, 0x3F#8)] with key := keys [15] }
    (15 : Fin 16).val = (s.reg 1).toNat % 16 ∧ s.key[(15 : Fin 16)] = true ∧
    (15 : Fin 16).val = ((regs [(1, 0x3F#8)]).reg 1).toNat % 16 ∧
      (regs [(1, 0x3F#8)]).key[(15 : Fin 16)] = false := by decide

/-- A destination that is not VF. -/
theorem witness_AddSubAndSubnWithFlag : (14 : Reg) ≠ .VF ∧ (15 : Reg) = .VF := by decide

theorem witness_ShiftsPutTheLostBitInVF : (0 : Reg) ≠ .VF ∧ (15 : Reg) = .VF := by decide

/-- Three bytes that wrap past the top; an address just before them and one just after. -/
theorem witness_BcdStore :
    let s := { State.reset with i := 0xFFF#16 }
    s.mem.wf = true ∧ (∀ k < 3, 0xFFE ≠ (s.i.toNat + k) % 4096) ∧ ∀ k < 3, 2 ≠ (s.i.toNat + k) % 4096 := by decide

/-- All registers from 0xFF8 on; the addresses just before and just after. -/
theorem witness_RegisterStore :
    let s := { State.reset with i := 0xFF8#16 }
    s.mem.wf = true ∧ (∀ k : Reg, k ≤ 15 → 0xFF7 ≠ (s.i.toNat + k.val) % 4096) ∧
      ∀ k : Reg, k ≤ 15 → 8 ≠ (s.i.toNat + k.val) % 4096 := by decide

/-- The registers loaded and not loaded at the boundary. -/
theorem witness_RegisterLoad : (14 : Reg) ≤ 14 ∧ (14 : Reg) < 15 := by decide

theorem witness_LoadAfterStoreChangesNothing : (ready 0x200#16 0xFF55).mem.wf = true := by decide

theorem witness_StoredBytesAreFetchedBigEndian : (ready 0x200#16 0xF155).mem.wf = true ∧ 1 ≤ (1 : Reg).val := by decide

/-- The highest and the lowest sprite; VF is 1 on a cell that is set and 0 elsewhere. -/
theorem witness_DrawXorsTheSprite :
    15 < 16 ∧ 0 < 16 ∧ (let s := withBytes 0x300 [0x80#8] { State.reset with disp := State.reset.disp.flip 0 0 }
      spritePixel 0 0 (spriteRows s 1) 0 0 = true ∧ s.disp.cell 0 0 = true) := by decide

/-- V[x] and V[y] are as before, and the first draw met no set cell (VF = 0). -/
theorem witness_DrawTwiceRestoresTheDisplay :
    let s := withBytes 0x300 [0xFF#8] State.reset
    1 < 16 ∧ ∃ t, exec (.drw 1 2 1) s = .next t ∧ t.reg 1 = s.reg 1 ∧ t.reg 2 = s.reg 2 ∧ t.reg .VF = 0 := by
  refine ⟨by decide, _, rfl, rfl, rfl, by decide⟩

/-- x = F, with the first draw colliding so that VF is as before. -/
theorem witness_DrawTwiceRestoresTheDisplay_with_VF :
    let s := withBytes 0x300 [0x80#8] { regs [(15, 1#8)] with disp := State.reset.disp.flip 1 0 }
    1 < 16 ∧ ∃ t, exec (.drw 15 2 1) s = .next t ∧ t.reg .VF = s.reg .VF ∧ t.reg 2 = s.reg 2 := by
  refine ⟨by decide, _, rfl, by decide, rfl⟩

/-- The lowest of two keys; the highest key alone; none. -/
theorem witness_KeyWait :
    ((keys [9, 3])[(3 : Fin 16)] = true ∧ ∀ j : Fin 16, j < 3 → (keys [9, 3])[j] = false) ∧
    ((keys [15])[(15 : Fin 16)] = true ∧ ∀ j : Fin 16, j < 15 → (keys [15])[j] = false) ∧
    ∀ k : Fin 16, State.reset.key[k] = false := by decide

/-- A jump to itself, and a key wait with no key pressed. -/
theorem witness_SelfJumpAndKeyWaitStandStill :
    (runs .fault (ready 0x200#16 0x1200) (.jp 0x200#12) ∧ (ready 0x200#16 0x1200).pc.toNat < 4096 ∧
      (0x200#12).toNat = (ready 0x200#16 0x1200).pc.toNat) ∧
    runs .fault (ready 0xFFE#16 0xFF0A) (.ldVxK 15) ∧ (ready 0xFFE#16 0xFF0A).pc.toNat < 4096 ∧
      ∀ k : Fin 16, (ready 0xFFE#16 0xFF0A).key[k] = false :=
  ⟨⟨⟨rfl, .inl rfl, _, rfl, rfl⟩, by decide, by decide⟩, ⟨rfl, .inl rfl, _, rfl, rfl⟩, by decide, by decide⟩

/-- A run with Steps, ticks past zero and a key update. -/
theorem witness_TimersFallWithTicksAlone :
    let s := { ready 0x200#16 0x1200 with dt := 1#8, st := 2#8 }
    let ops := [HostOp.step 0, .tick60, .setKeys (keys [1]), .step 7, .tick60, .tick60]
    runAvoids .fault isLdDtVx s ops = true ∧ runAvoids .fault isLdStVx s ops = true := by decide

/-- A skip, which a tick may pass; a draw, which a key update may pass. -/
theorem witness_TicksAndKeysCommuteWithOtherInstructions :
    (∀ x, Instr.skp 1 ≠ .ldVxDt x ∧ Instr.skp 1 ≠ .ldDtVx x ∧ Instr.skp 1 ≠ .ldStVx x) ∧
    ∀ x, Instr.drw 1 2 15 ≠ .skp x ∧ Instr.drw 1 2 15 ≠ .sknp x ∧ Instr.drw 1 2 15 ≠ .ldVxK x := by simp

/-- The largest image; and, for the empty cells, an image of one byte: the first cell above the font, the first above
the image. -/
theorem witness_ConstructLoadsFontAndImage :
    (List.replicate 3584 0xFF#8).length ≤ 3584 ∧ 79 < 80 ∧ 0 < [0xFF#8].length ∧
    (80 ≤ 80 ∧ (80 < 0x200 ∨ 0x200 + [0xFF#8].length ≤ 80)) ∧
    (80 ≤ 0x201 ∧ (0x201 < 0x200 ∨ 0x200 + [0xFF#8].length ≤ 0x201)) :=
  ⟨by rw [List.length_replicate], by decide⟩

/-- The first length that is too large, and the last that is not. -/
theorem witness_ConstructRejectsOnlyLargeImages :
    (List.replicate 3585 0xFF#8).length > 4096 - 0x200 ∧ ¬(List.replicate 3584 0xFF#8).length > 4096 - 0x200 := by
  rw [List.length_replicate, List.length_replicate]; decide

theorem witness_SoundLevelAndStopEdge : ∃ t, exec (.ldStVx 15) { State.reset with st := 1#8 } = .next t := ⟨_, rfl⟩

/-- The lowest live entry of a stack of one, the highest of a full one; a faulted state. -/
theorem witness_SetKeysWritesAndObserversRead :
    (0 : Fin 16).val < (State.sp { State.reset with sp := 1 }).val ∧
    (15 : Fin 16).val < (State.sp { State.reset with sp := 16 }).val ∧ faulted.fault.isSome = true := by decide

/-- The largest word, at the last address, where its second byte wraps to 0. -/
theorem witness_PlacedWordIsFetched :
    State.Inv { State.reset with pc := 0xFFF#16 } ∧ 65535 < 65536 ∧ State.reset.Inv := by decide

end Sys2Proof.Tests
end

/-! PROOFS. What one instruction can do, said once as a relation between the state it is given and its next state; the
claims about whole steps are read off it. -/

namespace Sys2Proof.Machine

/-! ### The effects of an instruction -/

/-- The next states instruction `i` can leave behind in `s`, one constructor per kind of update. Each carries what later
proofs need to know of the instruction: the registers it may write, or which instruction it is. -/
inductive InstrEffect (i : Instr) (s : State) : State → Prop where
  | reg (x : Reg) (b : Byte) (hx : writesReg i x = true) (hi : ∀ y, i ≠ .ldVxK y) : InstrEffect i s (s.setReg x b)
  | regFlag (x : Reg) (b f : Byte) (hx : writesReg i x = true) (hf : writesReg i .VF = true)
      (hi : ∀ y, i ≠ .ldVxK y) : InstrEffect i s ((s.setReg x b).setReg .VF f)
  | random (x : Reg) (nn b : Byte) (hi : i = .rnd x nn) :
      InstrEffect i s { s.setReg x b with draws := s.draws + 1 }
  | load (x : Reg) (bs : List Byte) (hi : i = .ldVxMi x) (hbs : bs.length = x.val + 1) :
      InstrEffect i s { s with v := loadRegs s.v 0 bs }
  | keyTaken (x : Reg) (k : Nat) (hi : i = .ldVxK x) (hk : firstPressed s.key = some k) :
      InstrEffect i s (s.setReg x (BitVec.ofNat 8 k))
  | keyAwaited (x : Reg) (hi : i = .ldVxK x) (hk : firstPressed s.key = none) :
      InstrEffect i s (s.setPc (s.pc - 2))
  | skip (hi : ∀ a, pcAfter a s i = if skipTaken i s then (a + 4) % 4096 else (a + 2) % 4096) :
      InstrEffect i s (s.skipIf (skipTaken i s))
  | jump (nnn : Addr12) (hi : i = .jp nnn) : InstrEffect i s (s.setPc nnn.toWord)
  | jumpV0 (nnn : Addr12) (hi : i = .jpV0 nnn) : InstrEffect i s (s.setPc ((s.reg .V0).toWord + nnn.toWord))
  | call (nnn : Addr12) (hi : i = .call nnn) (hs : s.sp.val < 16) : InstrEffect i s
      (State.setPc
        { s with stack := s.stack.set s.sp.val (s.pc.setWidth 12), sp := ⟨s.sp.val + 1, Nat.succ_lt_succ hs⟩ }
        nnn.toWord)
  | callFull (nnn : Addr12) (hi : i = .call nnn) (hs : s.sp = 16) : InstrEffect i s
      { s with pc := s.instrAddr, fault := some (.stackOverflow s.opcode s.instrAddr) }
  | ret (hi : i = .ret) (hs : 0 < s.sp.val) : InstrEffect i s
      (State.setPc { s with sp := ⟨s.sp.val - 1, by have := s.sp.isLt; omega⟩ }
        (s.stack[s.sp.val - 1]'(by have := s.sp.isLt; omega)).toWord)
  | retEmpty (hi : i = .ret) (hs : s.sp = 0) : InstrEffect i s
      { s with pc := s.instrAddr, fault := some (.stackUnderflow 0x00EE#16 s.instrAddr) }
  | index (w : Word) (hi : (∃ nnn, i = .ldI nnn) ∨ ∃ x, i = .addIVx x ∨ i = .ldFVx x) : InstrEffect i s (s.setI w)
  | store (bs : List Byte) (hi : ∃ x, i = .ldBVx x ∨ i = .ldMiVx x) :
      InstrEffect i s { s with mem := s.mem.setBlock s.i 0 bs }
  | clear (hi : i = .cls) : InstrEffect i s { s with disp := Display.blank }
  | sprite (x y : Reg) (n : Nat) (d : Display) (f : Byte) (hi : i = .drw x y n) :
      InstrEffect i s ({ s with disp := d }.setReg .VF f)
  | delay (x : Reg) (hi : i = .ldDtVx x) : InstrEffect i s { s with dt := s.reg x }
  | sound (x : Reg) (hi : i = .ldStVx x) : InstrEffect i s { s with st := s.reg x }

/-- The low nibble of a byte is the byte mod 16, the spelling of R220 in the skips' condition. -/
theorem lowNibble_eq_ofNat (b : Byte) : lowNibble b = Fin.ofNat 16 b.toNat :=
  Fin.ext (lowNibble_val b)

/-- Whatever `exec` answers is one of the effects. -/
theorem exec_effect {i : Instr} {s t : State} (h : exec i s = .next t) : InstrEffect i s t := by
  refine exec_elim (P := InstrEffect i s) h ?ret ?call ?key ?bcd ?store ?load ?draw ?rest
  case ret => exact fun hi => ⟨.ret hi, .retEmpty hi⟩
  case call => exact fun nnn hi => ⟨.call nnn hi, .callFull nnn hi⟩
  case key => exact fun x hi => ⟨fun k => .keyTaken x k hi, .keyAwaited x hi⟩
  case bcd => exact fun x hi => .store _ ⟨x, .inl hi⟩
  case store => exact fun x hi => .store _ ⟨x, .inr hi⟩
  case load => exact fun x hi => .load x _ hi (by simp)
  case draw => exact fun x y n hi d _ => .sprite x y n _ _ hi
  case rest =>
    clear h
    cases i <;> intro hcall hret hx hdrw h
    case call nnn => exact absurd rfl (hcall nnn)
    case ret => exact absurd rfl hret
    case ldVxK x => exact absurd rfl (hx x).1
    case ldBVx x => exact absurd rfl (hx x).2.1
    case ldMiVx x => exact absurd rfl (hx x).2.2.1
    case ldVxMi x => exact absurd rfl (hx x).2.2.2
    case drw x y n => exact absurd rfl (hdrw x y n)
    case cls => cases h; exact .clear rfl
    case jp nnn => cases h; exact .jump nnn rfl
    case jpV0 nnn => cases h; exact .jumpV0 nnn rfl
    case ldI nnn => cases h; exact .index _ (.inl ⟨nnn, rfl⟩)
    case addIVx x => cases h; exact .index _ (.inr ⟨x, .inl rfl⟩)
    case ldFVx x => cases h; exact .index _ (.inr ⟨x, .inr rfl⟩)
    case rnd x nn => cases h; exact .random x nn _ rfl
    case ldDtVx x => cases h; exact .delay x rfl
    case ldStVx x => cases h; exact .sound x rfl
    case seImm | sneImm | seReg | sneReg => cases h; exact .skip fun _ => rfl
    case skp x => rw [exec, execSkp, lowNibble_eq_ofNat] at h; cases h; exact .skip fun _ => rfl
    case sknp x => rw [exec, execSknp, lowNibble_eq_ofNat] at h; cases h; exact .skip fun _ => rfl
    case ldImm x _ | addImm x _ | ldReg x _ | orReg x _ | andReg x _ | xorReg x _ | ldVxDt x =>
      cases h; exact .reg x _ (by simp [writesReg]) (by simp)
    case addReg x _ | sub x _ | shr x _ | subn x _ | shl x _ =>
      cases h; exact .regFlag x _ _ (by simp [writesReg]) (by simp [writesReg]) (by simp)

end Sys2Proof.Machine

/-! PROOFS. The invariant and the fault record, along a Step and along every run from Construct. -/

namespace Sys2Proof.Machine

/-! ### The invariant along a Step -/

/-- Every effect keeps PC and I below 4096 and memory canonical: PC and I are written through `wrap12` alone, and a
block store lands below 4096. -/
theorem InstrEffect.keeps_inv {i : Instr} {s t : State} (he : InstrEffect i s t) (hs : s.Inv) : t.Inv := by
  obtain ⟨hpc, hi, hm⟩ := hs
  cases he with
  | reg | regFlag | random | load | keyTaken | clear | sprite | delay | sound => exact ⟨hpc, hi, hm⟩
  | keyAwaited | jump | jumpV0 | call | ret => exact ⟨State.wrap12_lt _, hi, hm⟩
  | callFull | retEmpty => exact ⟨State.wrap12_lt _, hi, hm⟩
  | skip =>
    cases skipTaken i s
    · exact ⟨hpc, hi, hm⟩
    · exact ⟨State.wrap12_lt _, hi, hm⟩
  | index => exact ⟨hpc, State.wrap12_lt _, hm⟩
  | store bs => exact ⟨hpc, hi, Memory.setBlock_wf s.i 0 bs hm⟩

/-- The byte CXNN draws changes nothing but what the effect `random` writes, so a performed instruction has one of the
effects whatever the byte. -/
theorem execDrawing_effect {r : Byte} {i : Instr} {s t : State} (h : execDrawing r i s = .next t) :
    InstrEffect i s t := by
  cases i
  case rnd x nn => cases h; exact .random x nn _ rfl
  all_goals exact exec_effect h

/-- A Step keeps the invariant if the instructions it performs have no other effects than `InstrEffect`. -/
theorem cycle_keeps_inv {p : Config.OddPcFetch} {run : Instr → State → Result}
    (hrun : ∀ {i s t}, run i s = .next t → InstrEffect i s t) {s t : State} (hs : s.Inv)
    (h : cycle p run s = .next t) : t.Inv := by
  obtain ⟨-, ⟨-, rfl⟩ | ⟨-, a, -, rfl⟩ | ⟨-, op, e, -, -, rfl⟩ | ⟨-, op, i, -, -, hi⟩⟩ := cycle_cases h
  · exact hs
  · exact hs
  · exact hs
  · exact (hrun hi).keeps_inv ⟨State.wrap12_lt _, hs.2⟩

/-! ### The fault record along a Step -/

/-- An instruction leaves FAULT alone, but for RET of an empty stack and CALL on a full one. -/
theorem InstrEffect.fault_cases {i : Instr} {s t : State} (he : InstrEffect i s t) :
    t.fault = s.fault ∨
    (i = .ret ∧ s.sp = 0 ∧
      t = { s with pc := s.instrAddr, fault := some (.stackUnderflow 0x00EE#16 s.instrAddr) }) ∨
    (∃ nnn, i = .call nnn) ∧ s.sp = 16 ∧
      t = { s with pc := s.instrAddr, fault := some (.stackOverflow s.opcode s.instrAddr) } := by
  cases he with
  | callFull nnn hi hs => exact .inr (.inr ⟨⟨nnn, hi⟩, hs, rfl⟩)
  | retEmpty hi hs => exact .inr (.inl ⟨hi, hs, rfl⟩)
  | skip => exact .inl (State.skipIf_fault _ _)
  | reg | regFlag | random | load | keyTaken | keyAwaited | jump | jumpV0 | call | ret | index | store | clear | sprite
  | delay | sound => exact .inl rfl

/-- The 8XYk family holds neither RET nor CALL. -/
theorem decodeAlu_ne {x y : Reg} {n : BitVec 4} :
    decodeAlu x y n ≠ .ok .ret ∧ ∀ nnn, decodeAlu x y n ≠ .ok (.call nnn) := by
  unfold decodeAlu
  split <;> simp

/-- The FXkk family holds neither RET nor CALL. -/
theorem decodeMisc_ne {x : Reg} {nn : Byte} :
    decodeMisc x nn ≠ .ok .ret ∧ ∀ nnn, decodeMisc x nn ≠ .ok (.call nnn) := by
  unfold decodeMisc
  split <;> simp

/-- 00EE is the one word of RET. -/
theorem decode_eq_ret {op : Word} (h : decode op = .ok .ret) : op = 0x00EE#16 := by
  unfold decode at h
  split at h
  case h_1 =>
    split at h
    · cases h
    · split at h
      · assumption
      · cases h
  case h_9 => exact absurd h decodeAlu_ne.1
  case h_16 => exact absurd h decodeMisc_ne.1
  all_goals simp [ite_eq_iff] at h

/-- The words of CALL are those with 2 in the top nibble. -/
theorem decode_eq_call {op : Word} {nnn : Addr12} (h : decode op = .ok (.call nnn)) : op.toNat / 4096 = 2 := by
  rw [← fieldN1_toNat]
  unfold decode at h
  split at h
  case h_3 hn => exact hn
  case h_9 => exact absurd h (decodeAlu_ne.2 nnn)
  case h_16 => exact absurd h (decodeMisc_ne.2 nnn)
  all_goals simp [ite_eq_iff] at h

/-- The record of a fault that a Step takes fits the state it leaves. -/
theorem cycle_faultFits {p : Config.OddPcFetch} {run : Instr → State → Result}
    (hrun : ∀ {i s t}, run i s = .next t → InstrEffect i s t) {s t : State} (hs : s.pc.toNat < 4096)
    (h : cycle p run s = .next t) : t.faultFits = true := by
  obtain ⟨hf, ⟨ho, rfl⟩ | ⟨-, a, hr, -⟩ | ⟨-, op, e, -, hd, rfl⟩ | ⟨-, op, i, -, hd, hi⟩⟩ := cycle_cases h
  · rw [Bool.and_eq_true, isOdd_iff] at ho
    simp [State.faultFits, ho.1]
  · rw [Memory.fetch16_eq hs] at hr
    cases hr
  · simp [State.faultFits, hd]
  · obtain hft | ⟨rfl, hsp, rfl⟩ | ⟨⟨nnn, rfl⟩, hsp, rfl⟩ := (hrun hi).fault_cases
    · rw [State.faultFits, hft, State.fetched_fault, hf]
    · have := decode_eq_ret hd
      simp [State.faultFits, this, show s.sp = 0 from hsp]
    · have := decode_eq_call hd
      simp [State.faultFits, this, show s.sp = 16 from hsp]

/-! ### Runs -/

/-- What every host operation keeps, every run keeps. -/
theorem runOps_induction {P : State → Prop} {p : Config.OddPcFetch} (hop : ∀ s o, P s → P (applyOp p s o)) {s : State}
    (hs : P s) (ops : List HostOp) : P (runOps p s ops) := by
  induction ops generalizing s with
  | nil => exact hs
  | cons o ops ih => exact ih (hop s o hs)

/-- A Step of a run either stands still or goes to the next state that `stepDrawing` answers. -/
theorem stateAfter_cases (s : State) (r : Result) : stateAfter s r = s ∨ r = .next (stateAfter s r) := by
  cases r with
  | next t => exact .inr rfl
  | fault f => exact .inl rfl
  | refused f => exact .inl rfl

/-- Every host operation keeps the invariant. -/
theorem applyOp_keeps_inv {p : Config.OddPcFetch} {s : State} (o : HostOp) (hs : s.Inv) : (applyOp p s o).Inv := by
  cases o with
  | tick60 => exact hs
  | setKeys k => exact hs
  | step r =>
    rcases stateAfter_cases s (stepDrawing p r s) with h | h
    · rw [applyOp, h]; exact hs
    · exact cycle_keeps_inv execDrawing_effect hs h

/-- Every host operation keeps FAULT fitting the state. -/
theorem applyOp_keeps_faultFits {p : Config.OddPcFetch} {s : State} (o : HostOp) (hs : s.pc.toNat < 4096)
    (hf : s.faultFits = true) : (applyOp p s o).faultFits = true := by
  cases o with
  | tick60 => exact hf
  | setKeys k => exact hf
  | step r =>
    rcases stateAfter_cases s (stepDrawing p r s) with h | h
    · rw [applyOp, h]; exact hf
    · exact cycle_faultFits execDrawing_effect hs h

/-- Settles O16: the three parts of the invariant and the fitting of FAULT evaluate at reset. -/
theorem resetMeetsTheInvariant : Obligations.ResetMeetsTheInvariant := by
  unfold Obligations.ResetMeetsTheInvariant
  decide

/-- A state Construct gives: the image fits, and all but memory is as after reset. -/
theorem construct_ok {image : List Byte} {font : Font} {s : State} (h : construct image font = .ok s) :
    image.length ≤ 3584 ∧
      s = { State.reset with
        mem := (Memory.layBytes [] Config.fontBase font.toList).layBytes Config.progBase image } := by
  unfold construct at h
  split at h
  · cases h
  · cases h
    exact ⟨Nat.le_of_not_lt ‹_›, rfl⟩

theorem construct_inv {image : List Byte} {font : Font} {s : State} (h : construct image font = .ok s) : s.Inv := by
  obtain ⟨hlen, rfl⟩ := construct_ok h
  have hfont : (Memory.layBytes [] Config.fontBase font.toList).wf = true :=
    Memory.layBytes_wf rfl (by simp)
  obtain ⟨hpc, hi, -⟩ := resetMeetsTheInvariant.1
  exact ⟨hpc, hi, Memory.layBytes_wf hfont (by simp only [Config.progBase]; omega)⟩

/-- Settles O17: a Step writes PC and I through `wrap12` and memory below 4096. -/
theorem stepKeepsTheInvariant : Obligations.StepKeepsTheInvariant := by
  intro p s t hs h
  exact cycle_keeps_inv exec_effect hs h

/-- Settles O18: Construct meets both, and every host operation keeps them. -/
theorem everyRunFromConstructMeetsTheInvariant : Obligations.EveryRunFromConstructMeetsTheInvariant := by
  intro image font s p ops h
  have hfits : s.faultFits = true := by
    obtain ⟨-, rfl⟩ := construct_ok h
    rfl
  exact runOps_induction (P := fun s => s.Inv ∧ s.faultFits = true)
    (fun _ o ⟨hinv, hfits⟩ => ⟨applyOp_keeps_inv o hinv, applyOp_keeps_faultFits o hinv.1 hfits⟩)
    ⟨construct_inv h, hfits⟩ ops

end Sys2Proof.Machine

/-! PROOFS. What an instruction leaves unchanged, and where a Step leaves PC. -/

namespace Sys2Proof.Machine

/-! ### What an instruction leaves unchanged -/

/-- Settles O21: the effects that write DISP are those of CLS and DRW, the one that writes memory that of FX33 and
FX55. -/
theorem displayAndMemoryWriters : Obligations.DisplayAndMemoryWriters := by
  intro i s t h
  cases exec_effect h with
  | clear hi => exact ⟨.inr (.inl hi), .inl rfl⟩
  | sprite x y n d f hi => exact ⟨.inr (.inr ⟨x, y, n, hi⟩), .inl rfl⟩
  | store bs hi => exact ⟨.inl rfl, .inr hi⟩
  | skip => exact ⟨.inl (State.skipIf_disp _ _), .inl (State.skipIf_mem _ _)⟩
  | reg | regFlag | random | load | keyTaken | keyAwaited | jump | jumpV0 | call | callFull | ret | retEmpty | index
  | delay | sound => exact ⟨.inl rfl, .inl rfl⟩

/-- Settles O22: `setI` is the effect of ANNN, FX1E and FX29 alone, SP and STACK are in those of CALL and RET alone, and
no effect writes KEY or OPCODE. -/
theorem indexStackKeyAndOpcodeWriters : Obligations.IndexStackKeyAndOpcodeWriters := by
  intro i s t h
  cases exec_effect h with
  | index w hi => exact ⟨.inr hi, .inl ⟨rfl, rfl⟩, rfl, rfl⟩
  | call nnn hi | callFull nnn hi => exact ⟨.inl rfl, .inr (.inr ⟨nnn, hi⟩), rfl, rfl⟩
  | ret hi | retEmpty hi => exact ⟨.inl rfl, .inr (.inl hi), rfl, rfl⟩
  | skip => simp
  | reg | regFlag | random | load | keyTaken | keyAwaited | jump | jumpV0 | store | clear | sprite | delay | sound =>
    exact ⟨.inl rfl, .inl ⟨rfl, rfl⟩, rfl, rfl⟩

/-- A register that is not written is none that is. -/
theorem ne_of_writesReg {i : Instr} {x r : Reg} (hx : writesReg i x = true) (hr : writesReg i r = false) : r ≠ x := by
  rintro rfl
  rw [hx] at hr
  cases hr

/-- Settles O23: every effect that writes registers writes those its instruction's row lists. -/
theorem registersWrittenAreTheTables : Obligations.RegistersWrittenAreTheTables := by
  intro i s t r h hr
  cases exec_effect h with
  | reg x b hx => exact State.reg_setReg_ne s b (ne_of_writesReg hx hr)
  | regFlag x b f hx hf =>
    rw [State.reg_setReg_ne _ f (ne_of_writesReg hf hr), State.reg_setReg_ne s b (ne_of_writesReg hx hr)]
  | random x nn b hi =>
    subst hi
    exact State.reg_setReg_ne s b (by simpa [writesReg] using hr)
  | load x bs hi hbs =>
    subst hi
    have hxr : x.val < r.val := by simpa [writesReg] using hr
    exact (loadRegs_getElem s.v 0 bs r.val r.isLt).trans (dif_neg (by omega))
  | keyTaken x k hi =>
    subst hi
    exact State.reg_setReg_ne s _ (by simpa [writesReg] using hr)
  | sprite x y n d f hi =>
    subst hi
    exact State.reg_setReg_ne { s with disp := d } f (by simpa [writesReg] using hr)
  | skip => exact State.skipIf_reg _ _ _
  | keyAwaited | jump | jumpV0 | call | callFull | ret | retEmpty | index | store | clear | delay | sound => rfl

/-! ### Where a Step leaves PC -/

/-- An instruction that writes a register goes on to the next one, but for the key wait. -/
theorem pcAfter_of_writesReg {i : Instr} {x : Reg} (hx : writesReg i x = true) (hi : ∀ y, i ≠ .ldVxK y) (a : Nat)
    (s : State) : pcAfter a s i = (a + 2) % 4096 := by
  cases i
  case ldVxK y => exact absurd rfl (hi y)
  case cls | ret | jp | call | seImm | sneImm | seReg | sneReg | jpV0 | skp | sknp => cases hx
  all_goals rfl

/-- The key wait goes on exactly if the scan finds a key (R223). -/
theorem pcAfter_ldVxK (x : Reg) (a : Nat) (s : State) :
    pcAfter a s (.ldVxK x) = if (firstPressed s.key).isSome then (a + 2) % 4096 else a := by
  rw [pcAfter]
  cases hk : firstPressed s.key with
  | none =>
    rw [if_neg]
    · rfl
    · rintro ⟨k, hk'⟩
      rw [firstPressed_none hk k] at hk'
      cases hk'
  | some k =>
    obtain ⟨hlt, hpressed, -⟩ := firstPressed_some hk
    rw [if_pos ⟨⟨k, hlt⟩, hpressed⟩]
    rfl

/-- The table of R26 reads nothing of the state that the fetch changes. -/
theorem pcAfter_fetched (a : Nat) (s : State) (op : Word) (i : Instr) :
    pcAfter a (s.fetched op) i = pcAfter a s i := by
  cases i <;> rfl

theorem wrap12_addr_toNat (nnn : Addr12) : (wrap12 nnn.toWord).toNat = nnn.toNat := by
  rw [State.wrap12_toNat, State.addrToWord_toNat]
  exact Nat.mod_eq_of_lt nnn.isLt

theorem wrap12_add_two_toNat (w : Word) : (wrap12 (w + 2)).toNat = (w.toNat + 2) % 4096 := by
  rw [State.wrap12_toNat, BitVec.toNat_add]
  exact Nat.mod_mod_of_dvd _ (by decide)

/-- From PC two above its address `a`, an instruction leaves PC where R26 says or, with a fault, at `a`. -/
theorem InstrEffect.pc_cases {i : Instr} {s t : State} {a : Nat} (he : InstrEffect i s t) (hf : s.fault = none)
    (ha : a < 4096) (hpc : s.pc.toNat = (a + 2) % 4096) :
    (t.fault = none ∧ t.pc.toNat = pcAfter a s i) ∨ (t.fault.isSome = true ∧ t.pc.toNat = a) := by
  have hback : s.instrAddr.toNat = a := by
    rw [State.instrAddr_toNat]
    omega
  cases he with
  | callFull | retEmpty => exact .inr ⟨rfl, hback⟩
  | reg x b hx hi => exact .inl ⟨hf, hpc.trans (pcAfter_of_writesReg hx hi a s).symm⟩
  | regFlag x b f hx _ hi => exact .inl ⟨hf, hpc.trans (pcAfter_of_writesReg hx hi a s).symm⟩
  | keyTaken x k hi hk =>
    subst hi
    exact .inl ⟨hf, by rw [pcAfter_ldVxK, hk]; exact hpc⟩
  | keyAwaited x hi hk =>
    subst hi
    exact .inl ⟨hf, by rw [pcAfter_ldVxK, hk]; exact hback⟩
  | skip hi =>
    refine .inl ⟨(State.skipIf_fault _ _).trans hf, ?_⟩
    rw [State.skipIf_pc, hi]
    split
    · rw [wrap12_add_two_toNat]
      omega
    · exact hpc
  | jump nnn hi | call nnn hi =>
    subst hi
    exact .inl ⟨hf, wrap12_addr_toNat nnn⟩
  | jumpV0 nnn hi =>
    subst hi
    refine .inl ⟨hf, ?_⟩
    simp [pcAfter]
  | ret hi hs =>
    subst hi
    have hlt : s.sp.val - 1 < 16 := by omega
    refine .inl ⟨hf, (wrap12_addr_toNat _).trans ?_⟩
    simp [pcAfter, hlt]
  | random x nn b hi | load x bs hi | clear hi | sprite x y n d f hi | delay x hi | sound x hi =>
    subst hi
    exact .inl ⟨hf, hpc⟩
  | index w hi =>
    obtain ⟨nnn, rfl⟩ | ⟨x, rfl | rfl⟩ := hi <;> exact .inl ⟨hf, hpc⟩
  | store bs hi =>
    obtain ⟨x, rfl | rfl⟩ := hi <;> exact .inl ⟨hf, hpc⟩

/-- Settles O25: a fault of the cycle itself leaves PC alone; a performed instruction starts two above its address. -/
theorem pcAfterEveryStep : Obligations.PcAfterEveryStep := by
  intro p s t hs h
  obtain ⟨hf, ⟨-, rfl⟩ | ⟨-, a, -, rfl⟩ | ⟨-, op, e, -, -, rfl⟩ | ⟨ho, op, i, hr, hd, hi⟩⟩ := cycle_cases h
  · rfl
  · rfl
  · rfl
  · have hpc : (s.fetched op).pc.toNat = (s.pc.toNat + 2) % 4096 := wrap12_add_two_toNat s.pc
    rw [nextInstr_of_decode hf ho hr hd]
    rcases (exec_effect hi).pc_cases hf hs hpc with ⟨hnone, hto⟩ | ⟨hsome, hto⟩
    · rw [hnone]
      exact hto.trans (pcAfter_fetched _ _ _ _)
    · obtain ⟨f, hft⟩ := Option.isSome_iff_exists.mp hsome
      rw [hft]
      exact BitVec.eq_of_toNat_eq hto

end Sys2Proof.Machine

/-! PROOFS. A register that an instruction does not read has no influence on it. -/

namespace Sys2Proof.Machine

section Unread

variable (s : State) (r : Reg) (b : Byte)

/-- A next state that only carries the value given to `r` along. -/
theorem mapNext_carried {t u : State} (h : u = t.setReg r b) :
    mapNext (fun t => t.setReg r b) (.next u) = mapNext (fun t => t.setReg r b) (.next t) := by
  subst h
  exact congrArg Host.Outcome.next (setReg_setReg_same t r b b)

/-- A next state that carries the value given to `r` along and then writes register `x`. -/
theorem mapNext_setReg {t u : State} (h : u = t.setReg r b) (x : Reg) (v : Byte) :
    mapNext (fun t => t.setReg r b) (.next (u.setReg x v)) =
      mapNext (fun t => t.setReg r b) (.next (t.setReg x v)) := by
  subst h
  exact congrArg Host.Outcome.next (setReg_last_wins t r x v b)

theorem mapNext_aluWriteFlag (x : Reg) (v : Byte) (f : Bool) :
    mapNext (fun t => t.setReg r b) (aluWriteFlag x v f (s.setReg r b)) =
      mapNext (fun t => t.setReg r b) (aluWriteFlag x v f s) := by
  have h := setReg_last_wins ((s.setReg r b).setReg x v) r .VF (flagByte f) b
  rw [setReg_last_wins s r x v b, setReg_last_wins (s.setReg x v) r .VF (flagByte f) b] at h
  exact congrArg Host.Outcome.next h.symm

theorem mapNext_skipIf (c : Bool) :
    mapNext (fun t => t.setReg r b) (.next ((s.setReg r b).skipIf c)) =
      mapNext (fun t => t.setReg r b) (.next (s.skipIf c)) :=
  congrArg Host.Outcome.next (skipIf_setReg s r b c)

/-- A load over a register file in which `r` was given a value. -/
theorem loadRegs_set (v : Vector Byte 16) (bs : List Byte) :
    (loadRegs (v.set r b) 0 bs).set r b = (loadRegs v 0 bs).set r b := by
  apply Vector.ext
  intro k hk
  by_cases hr : r.val = k
  · simp [hr]
  · simp [hr, loadRegs_getElem]

/-- The registers a block store reads, one above them being given a value. -/
theorem regsUpTo_setReg {x : Reg} (h : x < r) : (s.setReg r b).regsUpTo x = s.regsUpTo x := by
  apply List.ext_getElem
  · rw [State.regsUpTo_length, State.regsUpTo_length]
  · intro j hj _
    rw [State.regsUpTo_length] at hj
    rw [State.regsUpTo_getElem, State.regsUpTo_getElem]
    exact State.reg_setReg_ne s b (Fin.ne_of_lt (Fin.lt_def.mpr (Nat.lt_of_lt_of_le hj h)))

/-- A register that is read holds what it held before one that is not was given a value. -/
theorem reg_setReg_of_unread {i : Instr} (hr : readsReg i r = false) (x : Reg) (hx : readsReg i x = true) :
    (s.setReg r b).reg x = s.reg x := by
  refine State.reg_setReg_ne s b ?_
  rintro rfl
  rw [hx] at hr
  cases hr

end Unread

/-- Settles O24: the operands an instruction reads are the same, and what it then writes is laid over both states. -/
theorem unreadRegisterHasNoInfluence : Obligations.UnreadRegisterHasNoInfluence := by
  intro i s r b hr
  have hreg := reg_setReg_of_unread s r b hr
  cases i
  case cls | jp | ldI => exact mapNext_carried r b rfl
  case ret =>
    by_cases h : 0 < s.sp.val
    · rw [exec, exec, execRet_of_pos s h, execRet_of_pos (s.setReg r b) h]
      exact mapNext_carried r b rfl
    · have h0 : s.sp = 0 := Fin.ext (by simpa using h)
      rw [exec, exec, execRet_empty s h0, execRet_empty (s.setReg r b) h0]
      exact mapNext_carried r b rfl
  case call nnn =>
    by_cases h : s.sp.val < 16
    · rw [exec, exec, execCall_of_lt nnn s h, execCall_of_lt nnn (s.setReg r b) h]
      exact mapNext_carried r b rfl
    · have h0 : s.sp = 16 := Fin.ext (by have := s.sp.isLt; simp; omega)
      rw [exec, exec, execCall_full nnn s h0, execCall_full nnn (s.setReg r b) h0]
      exact mapNext_carried r b rfl
  case seImm x _ | sneImm x _ =>
    simp only [exec, execSeImm, execSneImm, hreg x (by simp [readsReg])]
    exact mapNext_skipIf s r b _
  case seReg x y | sneReg x y =>
    simp only [exec, execSeReg, execSneReg, hreg x (by simp [readsReg]), hreg y (by simp [readsReg])]
    exact mapNext_skipIf s r b _
  case skp x | sknp x =>
    simp only [exec, execSkp, execSknp, hreg x (by simp [readsReg])]
    exact mapNext_skipIf s r b _
  case ldImm x nn => exact mapNext_setReg r b rfl x nn
  case ldVxDt x => exact mapNext_setReg r b rfl x s.dt
  case rnd x nn =>
    exact mapNext_setReg (t := { s with draws := s.draws + 1 }) r b rfl x _
  case addImm x _ =>
    simp only [exec, execAddImm, hreg x (by simp [readsReg])]
    exact mapNext_setReg r b rfl x _
  case ldReg x y =>
    simp only [exec, execLdReg, hreg y (by simp [readsReg])]
    exact mapNext_setReg r b rfl x _
  case orReg x y | andReg x y | xorReg x y =>
    simp only [exec, execOr, execAnd, execXor, hreg x (by simp [readsReg]), hreg y (by simp [readsReg])]
    exact mapNext_setReg r b rfl x _
  case addReg x y | sub x y | subn x y =>
    simp only [exec, execAddReg, execSub, execSubn, hreg x (by simp [readsReg]), hreg y (by simp [readsReg])]
    exact mapNext_aluWriteFlag s r b x _ _
  case shr x _ | shl x _ =>
    simp only [exec, execShr, execShl, hreg x (by simp [readsReg])]
    exact mapNext_aluWriteFlag s r b x _ _
  case jpV0 nnn =>
    simp only [exec, execJpV0, hreg .V0 rfl]
    exact mapNext_carried r b rfl
  case addIVx x | ldFVx x =>
    simp only [exec, execAddIVx, execLdFVx, hreg x (by simp [readsReg])]
    exact mapNext_carried r b rfl
  case ldDtVx x | ldStVx x =>
    simp only [exec, execLdDtVx, execLdStVx, hreg x (by simp [readsReg])]
    exact mapNext_carried r b rfl
  case drw x y n =>
    simp only [exec, execDrw_eq, hreg x (by simp [readsReg]), hreg y (by simp [readsReg])]
    refine mapNext_setReg r b ?_ .VF _
    rfl
  case ldVxK x =>
    cases hk : firstPressed s.key with
    | none =>
      rw [exec, exec, execLdVxK_none x s hk, execLdVxK_none x (s.setReg r b) hk]
      exact mapNext_carried r b rfl
    | some k =>
      rw [exec, exec, execLdVxK_some x s hk, execLdVxK_some x (s.setReg r b) hk]
      exact mapNext_setReg r b rfl x _
  case ldBVx x =>
    simp only [exec, execLdBVx, storeAtI_eq, hreg x (by simp [readsReg])]
    exact mapNext_carried r b rfl
  case ldMiVx x =>
    have hx : x < r := by simpa [readsReg] using hr
    simp only [exec, execLdMiVx, storeAtI_eq, regsUpTo_setReg s r b hx]
    exact mapNext_carried r b rfl
  case ldVxMi x =>
    simp only [exec, execLdVxMi_eq]
    exact congrArg (fun v => Host.Outcome.next { s with v := v }) (loadRegs_set r b s.v _)

end Sys2Proof.Machine

/-! PROOFS. Faulted machines, reset, and the host's observers. -/

namespace Sys2Proof.Machine

/-! ### A faulted machine -/

/-- Nothing but DT, ST and KEY differs. -/
def OnlyTimersAndKeys (s t : State) : Prop := t = { s with dt := t.dt, st := t.st, key := t.key }

/-- A Step of a faulted machine leaves it as it is (R247). -/
theorem applyOp_step_faulted {p : Config.OddPcFetch} {s : State} {f : Fault} (hf : s.fault = some f) (r : Byte) :
    applyOp p s (.step r) = s := by
  rw [applyOp, stepDrawing, cycle_faulted hf]
  rfl

/-- Settles O19: on a faulted machine every host operation changes the timers and the keys alone, and so does a run. -/
theorem faultedMachineStaysFaulted : Obligations.FaultedMachineStaysFaulted := by
  intro p s f ops hf
  refine runOps_induction (P := OnlyTimersAndKeys s) (fun t o ht => ?_) (rfl : OnlyTimersAndKeys s s) ops
  cases o with
  | tick60 => rw [ht]; rfl
  | setKeys k => rw [ht]; rfl
  | step r =>
    have hft : t.fault = some f := by rw [ht]; exact hf
    rw [applyOp_step_faulted hft]
    exact ht

/-! ### Reset -/

/-- Settles O15: every field of the reset state is a literal, and memory lists no cell. -/
theorem resetValues : Obligations.ResetValues := by
  unfold Obligations.ResetValues
  refine ⟨by decide, rfl, rfl, rfl, by decide, rfl, rfl, Display.cell_blank, by decide, rfl, rfl, rfl, fun a => rfl⟩

/-! ### Sound, keys and observers -/

theorem soundActive_iff (s : State) : soundActive s = true ↔ s.st.toNat ≠ 0 := by
  simp [soundActive, BitVec.toNat_eq]

theorem stopSoundEdge_iff (s t : State) : stopSoundEdge s t = true ↔ s.st.toNat ≠ 0 ∧ t.st.toNat = 0 := by
  simp [stopSoundEdge, soundActive, BitVec.toNat_eq]

/-- Settles O58: the level is ST's, which a tick lowers by one and FX18 sets to V[x]. -/
theorem soundLevelAndStopEdge : Obligations.SoundLevelAndStopEdge := by
  intro s
  refine ⟨soundActive_iff s, ?_, fun x t h => ?_⟩
  · rw [stopSoundEdge_iff, State.tick60_st, State.countDown_toNat]
    omega
  · cases h
    exact stopSoundEdge_iff _ _

/-- The stack a snapshot shows is as long as SP says. -/
theorem snapshot_stack_length (s : State) : (snapshot s).stack.length = s.sp.val := by
  have := s.sp.isLt
  simp [snapshot]
  omega

/-- Entry `j` of it, below SP, is STACK[j]. -/
theorem snapshot_stack_getElem? (s : State) (j : Fin 16) (h : j.val < s.sp.val) :
    (snapshot s).stack[j.val]? = some s.stack[j] := by
  simp [snapshot, h]

/-- Settles O60: SetKeys is one field's update, the observers read the fields. -/
theorem setKeysWritesAndObserversRead : Obligations.SetKeysWritesAndObserversRead := by
  intro p s k
  refine ⟨⟨rfl, rfl, fun _ => rfl⟩, fun _ _ => rfl, fun _ => rfl, rfl, rfl, rfl, rfl, rfl, rfl, rfl, ?_, ?_⟩
  · exact snapshot_stack_length s
  · exact snapshot_stack_getElem? s

end Sys2Proof.Machine

/-! PROOFS. Memory: what Construct puts there, and the two bytes a fetch reads after a block write (20_memory.md). -/

namespace Sys2Proof.Machine

/-! ### A word read from a block -/

namespace Memory

/-- The address after an effective address is the next one. -/
theorem effAddr_add_one_mod (base : Word) (k : Nat) : (effAddr base k + 1) % 4096 = effAddr base (k + 1) := by
  simp only [effAddr, Config.memSize]
  omega

/-- The data addressing mode leaves an address inside the space as it is. -/
theorem effAddr_zero_of_lt {a : Word} (h : a.toNat < 4096) : effAddr a 0 = a.toNat := Nat.mod_eq_of_lt h

/-- A fetch inside a block just written reads two of its bytes, the one at the lower offset in the upper half. -/
theorem fetch16_setBlock {m : Memory} {base a : Word} {bs : List Byte} {j : Nat} (hm : wf m = true)
    (hj : j + 1 < bs.length) (hlen : bs.length ≤ 4096) (ha : a.toNat = effAddr base j) :
    fetch16 (setBlock m base 0 bs) a = .ok (bs[j] ++ bs[j + 1]) := by
  have byte {i : Nat} (hi : i < bs.length) : byteAt (setBlock m base 0 bs) (effAddr base i) = bs[i] := by
    simpa using byteAt_setBlock_at (base := base) (k := 0) hm hi hlen
  rw [fetch16_eq (ha ▸ State.effAddr_lt base j), ha, effAddr_add_one_mod, byte, byte]

/-! ### Placing a word -/

/-- Storing a word writes the block of its two bytes. -/
theorem storeWord_eq_setBlock {m : Memory} {a : Word} (op : Word) (h : a.toNat < 4096) :
    storeWord m a op = setBlock m a 0 (wordBytes op) := by
  simp only [storeWord, wordBytes, setBlock, effAddr_zero_of_lt h]
  rfl

/-- A word stored at an address inside the space is fetched there. -/
theorem fetch16_storeWord {m : Memory} {a : Word} (op : Word) (hm : wf m = true) (h : a.toNat < 4096) :
    fetch16 (storeWord m a op) a = .ok op := by
  have := fetch16_setBlock (bs := wordBytes op) hm (j := 0) (by simp [wordBytes]) (by simp [wordBytes])
    (effAddr_zero_of_lt h).symm
  rw [storeWord_eq_setBlock op h, this]
  exact congrArg Except.ok (word_of_bytes op)

theorem byteAt_storeWord_other {m : Memory} {a op : Word} {b : Nat} (h : b ≠ a.toNat)
    (h' : b ≠ (a.toNat + 1) % 4096) : byteAt (storeWord m a op) b = byteAt m b := by
  rw [storeWord, byteAt_setByte_ne h', byteAt_setByte_ne h]

/-! ### Cells in neither the font nor the image -/

/-- Beyond the font an unlisted cell reads as 0x00 (decision D21). -/
theorem unlisted_ge {a : Nat} (h : 80 ≤ a) : unlisted a = 0 := dif_neg (Nat.not_lt.mpr h)

end Memory

/-! ### Fetched words -/

/-- Settles O5: a fetch concatenates the two bytes it reads. -/
theorem fetchIsBigEndian : Obligations.FetchIsBigEndian := by
  intro m a ha
  exact ⟨_, Memory.fetch16_eq ha, Memory.append_toNat _ _⟩

/-- A 16-bit word is its own table word. -/
theorem tableWord_of_lt {w : Nat} (h : w < 65536) : tableWord 16 w = BitVec.ofNat 16 w :=
  congrArg (BitVec.ofNat 16) (Nat.mod_eq_of_lt h)

/-- Settles O59: the two byte writes of `storeWord` are the two bytes fetch reads. -/
theorem placedWordIsFetched : Obligations.PlacedWordIsFetched := by
  intro s w ⟨hpc, _, hmem⟩ hw
  refine ⟨?_, rfl, fun a h h' => Memory.byteAt_storeWord_other h h'⟩
  rw [← tableWord_of_lt hw]
  exact Memory.fetch16_storeWord _ hmem hpc

/-- Settles O45: FX55 writes V[0] .. V[x] as a block at I, whose first two bytes the fetch reads. -/
theorem storedBytesAreFetchedBigEndian : Obligations.StoredBytesAreFetchedBigEndian := by
  intro x s hmem hx
  have hlen := s.regsUpTo_length x
  have hI : (BitVec.ofNat 16 (s.i.toNat % 4096)).toNat = effAddr s.i 0 := by
    simp only [BitVec.toNat_ofNat, effAddr, Config.memSize, Nat.add_zero]
    omega
  refine ⟨_, storeAtI_eq (s.regsUpTo x) s, ?_⟩
  rw [Memory.fetch16_setBlock (j := 0) hmem (by omega) (by omega) hI, State.regsUpTo_getElem, State.regsUpTo_getElem]
  rfl

/-! ### Construct -/

/-- An image that fits is accepted. -/
theorem construct_of_length_le {image : List Byte} (font : Font) (h : image.length ≤ 3584) :
    construct image font = .ok { State.reset with
      mem := (Memory.layBytes [] Config.fontBase font.toList).layBytes Config.progBase image } :=
  if_neg (Nat.not_lt.mpr h)

/-- Settles O55: the font and the image are laid down apart, and what neither covers reads as unlisted. -/
theorem constructLoadsFontAndImage : Obligations.ConstructLoadsFontAndImage := by
  intro image font himage
  have hfont : (Memory.layBytes [] Config.fontBase font.toList).wf = true := Memory.layBytes_wf rfl (by simp)
  refine ⟨_, construct_of_length_le font himage, fun k hk => ?_, fun k hk => ?_, fun a ha ha' => ?_, rfl⟩
  · rw [Memory.byteAt_layBytes_other (.inl (by simp only [Config.progBase]; omega))]
    have := Memory.byteAt_layBytes_at (m := []) (base := Config.fontBase) (bs := font.toList) (j := k) rfl (by simpa)
      (by simp)
    rwa [Nat.zero_add, Vector.getElem_toList] at this
  · exact Memory.byteAt_layBytes_at hfont hk (by simp only [Config.progBase]; omega)
  · rw [Memory.byteAt_layBytes_other ha', Memory.byteAt_layBytes_other (.inr (by simpa)), Memory.byteAt,
      Memory.unlisted_ge ha]

end Sys2Proof.Machine

/-! PROOFS. The decoder and the encoder are inverse to each other, and the words that neither reaches (30_encoding.md). -/

namespace Sys2Proof

/-! ### The fields of an encoded word -/

section EncodedFields

variable (h : BitVec 4) (x y : Reg) (n : BitVec 4) (nn : Byte) (nnn : Addr12)

@[simp] theorem fieldN1_encodeFA : fieldN1 (encodeFA h nnn) = h := by
  apply BitVec.eq_of_toNat_eq
  rw [fieldN1_toNat, encodeFA_toNat]
  omega

@[simp] theorem fieldNNN_encodeFA : fieldNNN (encodeFA h nnn) = nnn := by
  apply BitVec.eq_of_toNat_eq
  rw [fieldNNN_toNat, encodeFA_toNat]
  omega

@[simp] theorem fieldN1_encodeFXK : fieldN1 (encodeFXK h x nn) = h := by
  apply BitVec.eq_of_toNat_eq
  rw [fieldN1_toNat, encodeFXK_toNat]
  omega

@[simp] theorem fieldX_encodeFXK : fieldX (encodeFXK h x nn) = x := by
  apply Fin.ext
  rw [fieldX_val, encodeFXK_toNat]
  omega

@[simp] theorem fieldNN_encodeFXK : fieldNN (encodeFXK h x nn) = nn := by
  apply BitVec.eq_of_toNat_eq
  rw [fieldNN_toNat, encodeFXK_toNat]
  omega

@[simp] theorem fieldN1_encodeFXYN : fieldN1 (encodeFXYN h x y n) = h := by
  apply BitVec.eq_of_toNat_eq
  rw [fieldN1_toNat, encodeFXYN_toNat]
  omega

@[simp] theorem fieldX_encodeFXYN : fieldX (encodeFXYN h x y n) = x := by
  apply Fin.ext
  rw [fieldX_val, encodeFXYN_toNat]
  omega

@[simp] theorem fieldY_encodeFXYN : fieldY (encodeFXYN h x y n) = y := by
  apply Fin.ext
  rw [fieldY_val, encodeFXYN_toNat]
  omega

@[simp] theorem fieldN_encodeFXYN : fieldN (encodeFXYN h x y n) = n := by
  apply BitVec.eq_of_toNat_eq
  rw [fieldN_toNat, encodeFXYN_toNat]
  omega

end EncodedFields

/-- Settles O2: the fields of an encoded word are the operands, and its fixed bits select the instruction's row. -/
theorem decodeOfEncodeIsTheInstruction : Obligations.DecodeOfEncodeIsTheInstruction := by
  intro i hi
  cases i
  case cls | ret => rfl
  case jp | call | ldI | jpV0 | seImm | sneImm | ldImm | addImm | rnd | skp | sknp | seReg | sneReg =>
    simp [encode, decode]
  case ldReg | orReg | andReg | xorReg | addReg | sub | shr | subn | shl => simp [encode, decode, decodeAlu]
  case ldVxDt | ldVxK | ldDtVx | ldStVx | addIVx | ldFVx | ldBVx | ldMiVx | ldVxMi =>
    simp [encode, decode, decodeMisc]
  case drw x y n =>
    have hn : n < 16 := by simpa [Instr.wellFormed] using hi
    simp [encode, decode, Nat.mod_eq_of_lt hn]

/-! ### A word put together from its fields -/

section Reassembled

variable {op : Word} {h : BitVec 4}

theorem encodeFA_fields (hn : (fieldN1 op).toNat = h.toNat) : encodeFA h (fieldNNN op) = op := by
  apply BitVec.eq_of_toNat_eq
  rw [encodeFA_toNat, ← hn, fieldN1_toNat, fieldNNN_toNat]
  omega

theorem encodeFXK_fields (hn : (fieldN1 op).toNat = h.toNat) : encodeFXK h (fieldX op) (fieldNN op) = op := by
  apply BitVec.eq_of_toNat_eq
  rw [encodeFXK_toNat, ← hn, fieldN1_toNat, fieldX_val, fieldNN_toNat]
  omega

theorem encodeFXYN_fields (hn : (fieldN1 op).toNat = h.toNat) :
    encodeFXYN h (fieldX op) (fieldY op) (fieldN op) = op := by
  apply BitVec.eq_of_toNat_eq
  rw [encodeFXYN_toNat, ← hn, fieldN1_toNat, fieldX_val, fieldY_val, fieldN_toNat]
  omega

end Reassembled

/-- The 8XYk family encodes its operands and its low nibble back. -/
theorem encode_of_decodeAlu {x y : Reg} {n : BitVec 4} {i : Instr} (hd : decodeAlu x y n = .ok i) :
    encode i = encodeFXYN 0x8#4 x y n ∧ i.wellFormed = true := by
  unfold decodeAlu at hd
  split at hd
  case h_10 => cases hd
  all_goals
    next hn =>
      cases hd
      exact ⟨congrArg (encodeFXYN 0x8#4 x y) (BitVec.eq_of_toNat_eq hn.symm), rfl⟩

/-- The FXkk family encodes its register and its low byte back. -/
theorem encode_of_decodeMisc {x : Reg} {nn : Byte} {i : Instr} (hd : decodeMisc x nn = .ok i) :
    encode i = encodeFXK 0xF#4 x nn ∧ i.wellFormed = true := by
  unfold decodeMisc at hd
  split at hd
  case h_10 => cases hd
  all_goals
    next hn =>
      cases hd
      exact ⟨congrArg (encodeFXK 0xF#4 x) (BitVec.eq_of_toNat_eq hn.symm), rfl⟩

/-- Settles O3: in each row of the table the fields that `decode` reads, with the selectors it tests, are the whole
word. -/
theorem encodeOfDecodeIsTheWord : Obligations.EncodeOfDecodeIsTheWord := by
  intro op i hd
  unfold decode at hd
  split at hd
  case h_1 =>
    split at hd
    · cases hd
      exact ⟨Eq.symm ‹_›, rfl⟩
    · split at hd
      · cases hd
        exact ⟨Eq.symm ‹_›, rfl⟩
      · cases hd
  case h_2 hn | h_3 hn | h_11 hn | h_12 hn =>
    cases hd
    exact ⟨encodeFA_fields hn, rfl⟩
  case h_4 hn | h_5 hn | h_7 hn | h_8 hn | h_13 hn =>
    cases hd
    exact ⟨encodeFXK_fields hn, rfl⟩
  case h_6 hn | h_10 hn =>
    split at hd
    · next hz =>
        cases hd
        exact ⟨by rw [encode, ← hz, encodeFXYN_fields hn], rfl⟩
    · cases hd
  case h_9 hn =>
    obtain ⟨he, hw⟩ := encode_of_decodeAlu hd
    exact ⟨he.trans (encodeFXYN_fields hn), hw⟩
  case h_14 hn =>
    cases hd
    have hlt : (fieldN op).toNat < 16 := (fieldN op).isLt
    exact ⟨by simpa [encode] using encodeFXYN_fields hn, by simpa [Instr.wellFormed] using hlt⟩
  case h_15 hn =>
    split at hd
    · next hk =>
        cases hd
        exact ⟨by rw [encode, ← hk, encodeFXK_fields hn], rfl⟩
    · split at hd
      · next hk =>
          cases hd
          exact ⟨by rw [encode, ← hk, encodeFXK_fields hn], rfl⟩
      · cases hd
  case h_16 =>
    have hn : (fieldN1 op).toNat = 0xF := by
      have := (fieldN1 op).isLt
      simp only [imp_false] at *
      omega
    obtain ⟨he, hw⟩ := encode_of_decodeMisc hd
    exact ⟨he.trans (encodeFXK_fields hn), hw⟩

/-! ### The words that decode to Unknown (R97) -/

/-- The 8XYk family refuses seven low nibbles. -/
theorem decodeAlu_error_iff {x y : Reg} {n : BitVec 4} :
    (∃ e, decodeAlu x y n = .error e) ↔ n.toNat ∈ [0x8, 0x9, 0xA, 0xB, 0xC, 0xD, 0xF] := by
  unfold decodeAlu
  split
  case h_10 =>
    have := n.isLt
    simp only [Except.error.injEq, exists_eq', List.mem_cons, List.not_mem_nil, or_false, true_iff, imp_false] at *
    omega
  all_goals
    next hn => simp [hn]

/-- The FXkk family refuses every low byte but its nine. -/
theorem decodeMisc_error_iff {x : Reg} {nn : Byte} :
    (∃ e, decodeMisc x nn = .error e) ↔
      nn.toNat ∉ [0x07, 0x0A, 0x15, 0x18, 0x1E, 0x29, 0x33, 0x55, 0x65] := by
  unfold decodeMisc
  split
  case h_10 =>
    simp only [Except.error.injEq, exists_eq', List.mem_cons, List.not_mem_nil, or_false, true_iff, imp_false] at *
    omega
  all_goals
    next hn => simp [hn]

/-- Settles O4: the rows of R97 are split by the primary selector as `decode` is, and each selector leaves the one row
that its own test refuses. -/
theorem unknownWordsAreTheSixSpaces : Obligations.UnknownWordsAreTheSixSpaces := by
  intro op
  have hzero : op.toNat < 0x1000 ↔ (fieldN1 op).toNat = 0 := by rw [fieldN1_toNat]; omega
  rw [hzero, ← fieldN1_toNat, ← fieldN_toNat, ← fieldNN_toNat]
  unfold decode
  split
  case h_1 hn | h_6 hn | h_10 hn | h_15 hn => simp [hn, ite_eq_iff, BitVec.toNat_eq]
  case h_9 hn => simp [hn, decodeAlu_error_iff]
  case h_16 =>
    have hn : (fieldN1 op).toNat = 0xF := by
      have := (fieldN1 op).isLt
      simp only [imp_false] at *
      omega
    simp [hn, decodeMisc_error_iff]
  case h_2 hn | h_3 hn | h_4 hn | h_5 hn | h_7 hn | h_8 hn | h_11 hn | h_12 hn | h_13 hn | h_14 hn => simp [hn]

end Sys2Proof

/-! PROOFS. A Step through the instruction it performs: what it decodes, and where its random byte is read (R100). -/

namespace Sys2Proof.Machine

/-! ### The random byte -/

section SameRun

variable {policy : Config.OddPcFetch} {run run' : Instr → State → Result} {s : State}

/-- A Step depends on `run` at the one instruction it performs. -/
theorem cycle_congr (h : ∀ i op, nextInstr policy s = some i → run i (s.fetched op) = run' i (s.fetched op)) :
    cycle policy run s = cycle policy run' s := by
  cases hf : s.fault with
  | some f => rw [cycle_faulted hf, cycle_faulted hf]
  | none =>
    cases ho : isOdd s.pc && policy == .fault with
    | true => rw [cycle_odd hf ho, cycle_odd hf ho]
    | false =>
      cases hr : s.mem.fetch16 s.pc with
      | error a => rw [cycle_range hf ho hr, cycle_range hf ho hr]
      | ok op =>
        cases hd : decode op with
        | error e => rw [cycle_unknown hf ho hr hd, cycle_unknown hf ho hr hd]
        | ok i =>
          rw [cycle_performs hf ho hr hd, cycle_performs hf ho hr hd]
          exact h i op (nextInstr_of_decode hf ho hr hd)

end SameRun

/-- Settles O14: `execDrawing` is `exec` on the instruction of such a Step. -/
theorem onlyRndReadsTheRandomByte : Obligations.OnlyRndReadsTheRandomByte := by
  intro p r r' s hrnd
  refine cycle_congr fun i op hi => ?_
  have hne : ∀ x nn, i ≠ .rnd x nn := fun x nn he => hrnd x nn (he ▸ hi)
  rw [execDrawing_of_ne hne, execDrawing_of_ne hne]

/-- The byte `exec` draws is that of the free value at the draw counter. -/
theorem exec_eq_execDrawing (i : Instr) (s : State) : exec i s = execDrawing (Config.randomByte s.draws) i s := by
  cases i <;> rfl

/-- Settles O13: the fetch leaves the draw counter alone, so both draw the same byte. -/
theorem stepIsStepWithTheDrawnByte : Obligations.StepIsStepWithTheDrawnByte := by
  intro p s
  exact cycle_congr fun i op _ => exec_eq_execDrawing i (s.fetched op)

/-! ### Decoded words and the Step -/

/-- Settles O1: each word's fields evaluate to the row of the table and its operands. -/
theorem shownWordsDecode : Obligations.ShownWordsDecode :=
  ⟨rfl, rfl, rfl, rfl, rfl, rfl, rfl, rfl, rfl, rfl, rfl, rfl⟩

/-- The state an instruction is performed in, with PC as R100 writes it. -/
theorem fetched_eq (s : State) (op : Word) :
    s.fetched op = { s with opcode := op, pc := BitVec.ofNat 16 ((s.pc.toNat + 2) % 4096) } := by
  rw [← wrap12_eq_ofNat (s.pc + 2) (s.pc.toNat + 2) (by simp [BitVec.toNat_add])]
  rfl

/-- Settles O6: an unfaulted Step past the odd check performs what it decodes. -/
theorem stepPerformsTheDecodedInstruction : Obligations.StepPerformsTheDecodedInstruction := by
  refine ⟨fun p s op i hf hpc hr hd => ?_, fun s => rfl⟩
  rw [stepWith, cycle_performs hf (odd_check_false hpc) hr hd, fetched_eq]

end Sys2Proof.Machine

/-! PROOFS. Jumps, call, return and skips: the effect of each instruction, and Steps that stand still
(40_control_flow.md). -/

namespace Sys2Proof.Machine

/-! ### The words of an instruction -/

/-- A well-formed instruction has one word, its encoding. -/
theorem decode_eq_ok_iff {i : Instr} (hi : i.wellFormed = true) (op : Word) :
    decode op = .ok i ↔ op = encode i :=
  ⟨fun h => (encodeOfDecodeIsTheWord op i h).1.symm, fun h => h ▸ decodeOfEncodeIsTheInstruction i hi⟩

/-! ### Writes to PC -/

/-- Setting PC is an update of the one field, to the number mod 4096. -/
theorem setPc_eq_ofNat (s : State) {w : Word} {n : Nat} (h : w.toNat % 4096 = n % 4096) :
    s.setPc w = { s with pc := BitVec.ofNat 16 (n % 4096) } := by
  rw [State.setPc, wrap12_eq_ofNat w n h]

/-- A jump to an address field sets PC to it as it stands: it is below 4096 already. -/
theorem setPc_addr (s : State) (nnn : Addr12) : s.setPc nnn.toWord = { s with pc := BitVec.ofNat 16 nnn.toNat } := by
  rw [setPc_eq_ofNat s (n := nnn.toNat) (by rw [State.addrToWord_toNat]), Nat.mod_eq_of_lt nnn.isLt]

/-- Settles O26: both jumps are one `setPc`; the 16-bit sum of BNNN reduces mod 4096 as the sum of numbers does. -/
theorem jumpsSetPc : Obligations.JumpsSetPc := by
  intro nnn s
  refine ⟨fun op => ?words, ?jp, ?jpV0⟩
  case words =>
    rw [decode_eq_ok_iff rfl, BitVec.toNat_eq, encode, encodeFA_toNat]
    rfl
  case jp => exact congrArg Host.Outcome.next (setPc_addr s nnn)
  case jpV0 =>
    refine congrArg Host.Outcome.next (setPc_eq_ofNat s ?_)
    rw [BitVec.toNat_add, State.byteToWord_toNat, State.addrToWord_toNat]
    exact Nat.mod_mod_of_dvd _ (by decide)

/-- A skip on a Boolean test is a skip on the condition it tests, to PC + 2 mod 4096. -/
theorem skipIf_of_iff (s : State) {c : Bool} {p : Prop} [Decidable p] (h : c = true ↔ p) :
    s.skipIf c = { s with pc := if p then BitVec.ofNat 16 ((s.pc.toNat + 2) % 4096) else s.pc } := by
  by_cases hp : p
  · rw [h.mpr hp, if_pos hp]
    exact setPc_eq_ofNat s ((State.wrap12_toNat _).symm.trans (wrap12_add_two_toNat s.pc))
  · rw [Bool.eq_false_iff.mpr (mt h.mp hp), if_neg hp]
    rfl

/-- Settles O32: each register skip is `skipIf` of its comparison. -/
theorem registerSkips : Obligations.RegisterSkips := by
  intro x y nn s
  exact ⟨congrArg Host.Outcome.next (skipIf_of_iff s beq_iff_eq),
    congrArg Host.Outcome.next (skipIf_of_iff s bne_iff_ne),
    congrArg Host.Outcome.next (skipIf_of_iff s beq_iff_eq),
    congrArg Host.Outcome.next (skipIf_of_iff s bne_iff_ne)⟩

/-! ### Call and return -/

/-- Settles O27: the push writes the low 12 bits of PC at SP and no other entry. -/
theorem callPushesAndJumps : Obligations.CallPushesAndJumps := by
  intro nnn s h
  refine ⟨_, execCall_of_lt nnn s h, wrap12_addr_toNat nnn, rfl, ?_, fun k hk => ?_, rfl⟩
  · simp
  · simpa using Vector.getElem_set_ne h k.isLt hk.symm

/-- Settles O28: the entry below SP is a 12-bit address, so PC takes it as it stands. -/
theorem retPopsIntoPc : Obligations.RetPopsIntoPc := by
  intro s k hk
  refine ⟨_, execRet_of_pos s (by omega), ?_, ?_, rfl⟩
  · rw [State.setPc_pc, wrap12_addr_toNat]
    simp [hk]
  · simp [hk]

/-- Settles O31: RET pops the entry that CALL has pushed, which is PC where PC is below 4096. -/
theorem retAfterCallResumes : Obligations.RetAfterCallResumes := by
  intro nnn s hsp hpc
  obtain ⟨t, hcall, -, htsp, hentry, hothers, ht⟩ := callPushesAndJumps nnn s hsp
  obtain ⟨u, hret, hupc, husp, hu⟩ := retPopsIntoPc t ⟨s.sp.val, hsp⟩ htsp
  have hstack : u.stack = t.stack := by rw [hu]
  have hpc' : u.pc = s.pc := BitVec.eq_of_toNat_eq (hupc.trans (hentry.trans (Nat.mod_eq_of_lt hpc)))
  have hsp' : u.sp = s.sp := Fin.ext husp
  refine ⟨t, u, hcall, hret, ?_, fun k hk => hstack ▸ hothers k hk⟩
  rw [hpc', hsp'] at hu
  rw [hstack, hu, ht]

/-! ### Steps that stand still -/

/-- An instruction that sets PC back to the address it was fetched from leaves OPCODE alone changed by the Step. -/
theorem setPc_fetched {s : State} {w : Word} (op : Word) (h : wrap12 w = s.pc) :
    (s.fetched op).setPc w = { s with opcode := op } := by
  rw [State.setPc, h]
  rfl

/-- The scan finds no key when none is pressed. -/
theorem firstPressed_eq_none {key : Keys} (h : ∀ k : Fin 16, key[k] = false) : firstPressed key = none := by
  cases hk : firstPressed key with
  | none => rfl
  | some k =>
    obtain ⟨hlt, hpressed, -⟩ := firstPressed_some hk
    exact absurd hpressed (Bool.eq_false_iff.mp (h ⟨k, hlt⟩))

/-- Settles O51: the self-jump and the key wait both set PC to the address of the instruction. -/
theorem selfJumpAndKeyWaitStandStill : Obligations.SelfJumpAndKeyWaitStandStill := by
  intro p s op i hf hpc hodd hr hd hi
  rw [stepWith, cycle_performs hf (odd_check_false hodd) hr hd]
  obtain ⟨nnn, rfl, hn⟩ | ⟨⟨x, rfl⟩, hkeys⟩ := hi
  · have hself : wrap12 nnn.toWord = s.pc := BitVec.eq_of_toNat_eq ((wrap12_addr_toNat nnn).trans hn)
    exact congrArg Host.Outcome.next (setPc_fetched op hself)
  · have hback : wrap12 ((s.fetched op).pc - 2) = s.pc := State.instrAddr_fetched s op hpc
    exact (execLdVxK_none x (s.fetched op) (firstPressed_eq_none hkeys)).trans
      (congrArg Host.Outcome.next (setPc_fetched op hback))

end Sys2Proof.Machine

/-! PROOFS. Register loads, the ALU and the random byte: what the shared writes leave in the registers, and the value and
flag each instruction computes (41_register_alu.md). -/

namespace Sys2Proof.Machine

/-! ### The shared writes -/

/-- A result without a flag is in V[x], and nothing else has changed. -/
theorem aluWrite_next (x : Reg) (r : Byte) (s : State) :
    ∃ t, aluWrite x r s = .next t ∧ t.reg x = r ∧ OnlyReg x s t :=
  ⟨s.setReg x r, rfl, State.reg_setReg_same s x r, fun _ hz => State.reg_setReg_ne s r hz, rfl⟩

/-- A result with a flag: VF is written last, so it holds the flag for every x, and V[x] the result unless x is F (D8). -/
theorem aluWriteFlag_next (x : Reg) (r : Byte) (f : Bool) (s : State) :
    ∃ t, aluWriteFlag x r f s = .next t ∧ (x ≠ .VF → t.reg x = r) ∧ t.reg .VF = flagByte f ∧ OnlyRegAndVF x s t := by
  refine ⟨(s.setReg x r).setReg .VF (flagByte f), rfl, fun hx => ?_, State.reg_setReg_same _ _ _, fun z hzx hzf => ?_, rfl⟩
  · rw [State.reg_setReg_ne _ _ hx, State.reg_setReg_same]
  · rw [State.reg_setReg_ne _ _ hzf, State.reg_setReg_ne _ _ hzx]

/-- The drawn byte is in V[x] under its mask, and the draw is counted. -/
theorem rndWith_next (r : Byte) (x : Reg) (nn : Byte) (s : State) :
    ∃ t, rndWith r x nn s = .next t ∧ t.reg x = r &&& nn ∧ (∀ z, z ≠ x → t.reg z = s.reg z) ∧
      t = { s with v := t.v, draws := s.draws + 1 } :=
  ⟨_, rfl, State.reg_setReg_same s x (r &&& nn), fun _ hz => State.reg_setReg_ne s (r &&& nn) hz, rfl⟩

/-! ### Flags -/

theorem flagByte_carry (p q : Byte) : flagByte (carry p q) = if p.toNat + q.toNat > 255 then 1 else 0 := by
  simp [flagByte, carry]

theorem flagByte_notBorrow (p q : Byte) : flagByte (notBorrow p q) = if p.toNat ≥ q.toNat then 1 else 0 := by
  simp [flagByte, notBorrow]

/-- A bit of a byte, as VF holds it. -/
theorem flagByte_getLsbD_toNat (p : Byte) (k : Nat) : (flagByte (p.getLsbD k)).toNat = p.toNat / 2 ^ k % 2 := by
  rw [← Nat.toNat_testBit, ← BitVec.testBit_toNat, flagByte_toNat]
  cases p.toNat.testBit k <;> rfl

theorem flagByte_shiftOutRight_toNat (p : Byte) : (flagByte (shiftOutRight p)).toNat = p.toNat % 2 :=
  (flagByte_getLsbD_toNat p 0).trans (by rw [Nat.pow_zero, Nat.div_one])

/-- Bit 7 of a byte is what is left of it above 127. -/
theorem flagByte_shiftOutLeft_toNat (p : Byte) : (flagByte (shiftOutLeft p)).toNat = p.toNat / 128 := by
  have hbit : (flagByte (shiftOutLeft p)).toNat = p.toNat / 128 % 2 := flagByte_getLsbD_toNat p 7
  have hp : p.toNat < 256 := p.isLt
  omega

/-! ### Arithmetic with a flag -/

/-- A difference mod 256 with its not-borrow: SUB and SUBN are this with the operands in either order. -/
theorem aluWriteFlag_sub_next (x : Reg) (p q : Byte) (s : State) :
    ∃ t, aluWriteFlag x (p - q) (notBorrow p q) s = .next t ∧
      (x ≠ .VF → (t.reg x).toNat = (p.toNat + 256 - q.toNat) % 256) ∧
      t.reg .VF = (if p.toNat ≥ q.toNat then 1 else 0) ∧ OnlyRegAndVF x s t := by
  obtain ⟨t, ht, hx, hf, hother⟩ := aluWriteFlag_next x (p - q) (notBorrow p q) s
  have hsub : (p - q).toNat = (p.toNat + 256 - q.toNat) % 256 := by
    rw [BitVec.toNat_sub]
    omega
  exact ⟨t, ht, fun h => (hx h).symm ▸ hsub, hf.trans (flagByte_notBorrow p q), hother⟩

/-- Settles O36: the sum of the bytes is the sum mod 256, and both differences are `aluWriteFlag_sub_next`. -/
theorem addSubAndSubnWithFlag : Obligations.AddSubAndSubnWithFlag := by
  intro x y s p q
  refine ⟨?add, aluWriteFlag_sub_next x (s.reg x) (s.reg y) s, aluWriteFlag_sub_next x (s.reg y) (s.reg x) s⟩
  case add =>
    obtain ⟨t, ht, hx, hf, hother⟩ := aluWriteFlag_next x (s.reg x + s.reg y) (carry (s.reg x) (s.reg y)) s
    exact ⟨t, ht, fun h => (hx h).symm ▸ BitVec.toNat_add _ _, hf.trans (flagByte_carry _ _), hother⟩

/-- Settles O37: a shift by one halves or doubles the byte, and the flag is its lowest or highest bit. -/
theorem shiftsPutTheLostBitInVF : Obligations.ShiftsPutTheLostBitInVF := by
  intro x y s p
  refine ⟨?shr, ?shl⟩
  case shr =>
    obtain ⟨t, ht, hx, hf, hother⟩ := aluWriteFlag_next x (s.reg x >>> 1) (shiftOutRight (s.reg x)) s
    have hhalf : (s.reg x >>> 1).toNat = p / 2 := BitVec.toNat_ushiftRight _ _
    exact ⟨t, ht, fun h => (hx h).symm ▸ hhalf, hf.symm ▸ flagByte_shiftOutRight_toNat _, hother⟩
  case shl =>
    obtain ⟨t, ht, hx, hf, hother⟩ := aluWriteFlag_next x (s.reg x <<< 1) (shiftOutLeft (s.reg x)) s
    have hdouble : (s.reg x <<< 1).toNat = 2 * p % 256 := by
      rw [BitVec.toNat_shiftLeft, Nat.shiftLeft_eq, Nat.mul_comm]
    exact ⟨t, ht, fun h => (hx h).symm ▸ hdouble, hf.symm ▸ flagByte_shiftOutLeft_toNat _, hother⟩

/-! ### Loads, logic and the random byte -/

/-- Settles O34: both are `aluWrite`, and the words of 6XNN are its one encoding. -/
theorem immediateLoadAndAdd : Obligations.ImmediateLoadAndAdd := by
  intro x nn s
  refine ⟨fun op => ?words, aluWrite_next x nn s, ?add⟩
  case words =>
    rw [decode_eq_ok_iff rfl, BitVec.toNat_eq, encode, encodeFXK_toNat, Nat.mul_comm x.val]
    rfl
  case add =>
    obtain ⟨t, ht, hx, hother⟩ := aluWrite_next x (s.reg x + nn) s
    exact ⟨t, ht, hx.symm ▸ BitVec.toNat_add _ _, hother⟩

/-- Settles O35: all four are `aluWrite`, and the logic of bytes is the logic of their bits. -/
theorem copyAndLogic : Obligations.CopyAndLogic := by
  intro x y s
  refine ⟨aluWrite_next x (s.reg y) s, ?or, ?and, ?xor⟩
  case or =>
    obtain ⟨t, ht, hx, hother⟩ := aluWrite_next x (s.reg x ||| s.reg y) s
    exact ⟨t, ht, fun b => hx.symm ▸ BitVec.getLsbD_or, hother⟩
  case and =>
    obtain ⟨t, ht, hx, hother⟩ := aluWrite_next x (s.reg x &&& s.reg y) s
    exact ⟨t, ht, fun b => hx.symm ▸ BitVec.getLsbD_and, hother⟩
  case xor =>
    obtain ⟨t, ht, hx, hother⟩ := aluWrite_next x (s.reg x ^^^ s.reg y) s
    exact ⟨t, ht, fun b => hx.symm ▸ BitVec.getLsbD_xor, hother⟩

/-- Settles O38: `execDrawing` performs CXNN as `rndWith` of the given byte, and `exec` as `rndWith` of the free value. -/
theorem rndMasksTheDrawnByte : Obligations.RndMasksTheDrawnByte := by
  intro x nn s
  refine ⟨fun r => ?_, rndWith_next (Config.randomByte s.draws) x nn s⟩
  obtain ⟨t, ht, hx, hother, hframe⟩ := rndWith_next r x nn s
  exact ⟨t, ht, fun b => hx.symm ▸ BitVec.getLsbD_and, hother, hframe⟩

end Sys2Proof.Machine

/-! PROOFS. The index register and the memory transfers: what a block store at I and a block load from I leave behind,
and each instruction as one of them or as one write of I (42_index_memory.md). -/

namespace Sys2Proof.Machine

/-! ### Block transfers at I -/

/-- A block store at I, no longer than the memory: its bytes stand at their effective addresses, and nothing else has
changed. -/
theorem storeAtI_next {bytes : List Byte} {s : State} (hmem : s.mem.wf = true) (hlen : bytes.length ≤ 4096) :
    ∃ t, storeAtI bytes s = .next t ∧
      (∀ j (hj : j < bytes.length), t.mem.byteAt ((s.i.toNat + j) % 4096) = bytes[j]) ∧
      (∀ a, (∀ j < bytes.length, a ≠ (s.i.toNat + j) % 4096) → t.mem.byteAt a = s.mem.byteAt a) ∧
      t = { s with mem := t.mem } := by
  refine ⟨_, storeAtI_eq bytes s, fun j hj => ?_, fun a ha => ?_, rfl⟩
  · simpa [effAddr] using Memory.byteAt_setBlock_at (base := s.i) (k := 0) hmem hj hlen
  · exact Memory.byteAt_setBlock_other fun j hj => by simpa [effAddr] using ha j hj

/-- Settles O42: FX55 is the block store of the registers up to x, whose byte k is V[k]. -/
theorem registerStore : Obligations.RegisterStore := by
  intro x s hmem
  have hlen := s.regsUpTo_length x
  have hupTo (k : Reg) : k ≤ x ↔ k.val < (s.regsUpTo x).length := by rw [hlen, Fin.le_def, Nat.lt_succ_iff]
  obtain ⟨t, ht, hbytes, hother, hframe⟩ := storeAtI_next (bytes := s.regsUpTo x) hmem (by omega)
  refine ⟨t, ht, fun k hk => ?_, fun a ha => hother a fun j hj => ?_, hframe⟩
  · rw [hbytes k.val ((hupTo k).mp hk), State.regsUpTo_getElem]
  · exact ha ⟨j, by omega⟩ ((hupTo _).mpr hj)

/-- Settles O43: FX65 loads the block of x + 1 bytes read at I, and register k is its byte k where it reaches so far. -/
theorem registerLoad : Obligations.RegisterLoad := by
  intro x s
  refine ⟨_, execLdVxMi_eq x s, fun k hk => ?_, fun k hk => ?_, rfl⟩
  · have : k.val < x.val + 1 := Nat.lt_succ_of_le hk
    simp [State.reg, loadRegs_getElem, effAddr, this]
  · have : ¬ k.val < x.val + 1 := Nat.not_lt.mpr hk
    simp [State.reg, loadRegs_getElem, this]

/-- Settles O44: each register up to x loads the byte that was stored from it, and the others stay. -/
theorem loadAfterStoreChangesNothing : Obligations.LoadAfterStoreChangesNothing := by
  intro x s hmem
  obtain ⟨t, hstore, hbytes, -, ht⟩ := registerStore x s hmem
  obtain ⟨u, hload, hloaded, habove, hu⟩ := registerLoad x t
  have hi : t.i = s.i := by rw [ht]
  have hv : t.v = s.v := by rw [ht]
  have hreg (k : Reg) : u.reg k = t.reg k := by
    by_cases hk : k ≤ x
    · rw [hloaded k hk, hi, hbytes k hk, State.reg, State.reg, hv]
    · exact habove k (not_le.mp hk)
  rw [State.v_ext hreg] at hu
  exact ⟨t, hstore, hload.trans (congrArg Host.Outcome.next hu)⟩

/-- Settles O41: FX33 is the block store of the three digits, each below 256. -/
theorem bcdStore : Obligations.BcdStore := by
  intro x s hmem
  obtain ⟨t, ht, hbytes, hother, hframe⟩ := storeAtI_next (bytes := bcdDigits (s.reg x)) hmem (by simp)
  have hdigit {d : Nat} (hd : d < 256) : (BitVec.ofNat 8 d).toNat = d := Nat.mod_eq_of_lt hd
  have hx : (s.reg x).toNat < 256 := (s.reg x).isLt
  refine ⟨t, ht, ?hundreds, ?tens, ?ones, hother, hframe⟩
  case hundreds => exact (congrArg BitVec.toNat (hbytes 0 (by simp))).trans (hdigit (by omega))
  case tens => exact (congrArg BitVec.toNat (hbytes 1 (by simp))).trans (hdigit (by omega))
  case ones => exact (congrArg BitVec.toNat (hbytes 2 (by simp))).trans (hdigit (by omega))

/-! ### Writes to I -/

/-- Setting I is an update of the one field, to the number mod 4096. -/
theorem setI_eq_ofNat (s : State) {w : Word} {n : Nat} (h : w.toNat % 4096 = n % 4096) :
    s.setI w = { s with i := BitVec.ofNat 16 (n % 4096) } := by
  rw [State.setI, wrap12_eq_ofNat w n h]

/-- Setting I to a number below 4096 stores it as it stands. -/
theorem setI_of_lt (s : State) {w : Word} {n : Nat} (h : w.toNat = n) (hn : n < 4096) :
    s.setI w = { s with i := BitVec.ofNat 16 n } := by
  rw [setI_eq_ofNat s (n := n) (by rw [h]), Nat.mod_eq_of_lt hn]

/-- Settles O39: both loads are one `setI` of a number below 4096, and the words of ANNN are its one encoding. -/
theorem indexLoads : Obligations.IndexLoads := by
  intro nnn x s
  refine ⟨fun op => ?words, ?ldI, ?ldFVx⟩
  case words =>
    rw [decode_eq_ok_iff rfl, BitVec.toNat_eq, encode, encodeFA_toNat]
    rfl
  case ldI => exact congrArg Host.Outcome.next (setI_of_lt s (State.addrToWord_toNat nnn) nnn.isLt)
  case ldFVx =>
    have hglyph : (glyphAddr (lowNibble (s.reg x))).toNat = 5 * ((s.reg x).toNat % 16) := by
      rw [glyphAddr_toNat, lowNibble_val]
    exact congrArg Host.Outcome.next (setI_of_lt s hglyph (by omega))

/-- Settles O40: the 16-bit sum of I and V[x] reduces mod 4096 as the sum of numbers does. -/
theorem addToIndexWraps : Obligations.AddToIndexWraps := by
  intro x s
  refine congrArg Host.Outcome.next (setI_eq_ofNat s ?_)
  rw [BitVec.toNat_add, State.byteToWord_toNat]
  exact Nat.mod_mod_of_dvd _ (by decide)

end Sys2Proof.Machine

/-! PROOFS. The display: CLS, one draw as an XOR with the sprite and the collision it reports, and a draw repeated
(43_display.md). -/

namespace Sys2Proof.Machine

/-- Settles O46: CLS writes the blank display. -/
theorem clearDisplay : Obligations.ClearDisplay :=
  fun _ => ⟨_, rfl, Display.cell_blank, rfl⟩

/-! ### One draw -/

/-- A sprite is too short to wrap onto its own rows, so its pixels are distinct. -/
theorem spriteRows_length_le (s : State) {n : Nat} (hn : n < 16) : (spriteRows s n).length ≤ 32 := by
  rw [spriteRows_length]
  omega

/-- VF as the truth of what its flag means. -/
theorem flagByte_eq_ite {f : Bool} {P : Prop} [Decidable P] (h : f = true ↔ P) : flagByte f = if P then 1 else 0 := by
  rw [flagByte]
  exact if_congr h rfl rfl

/-- Drawing a sprite of at most 32 rows flips exactly the cells under its set bits. -/
theorem cell_plotAll_pixels {rows : List Byte} (h : rows.length ≤ 32) (d : Display) (px py : Nat) (cx : Fin 64)
    (cy : Fin 32) :
    (Display.plotAll (d, false) (Display.pixels px py 0 rows)).1.cell cx cy =
      (d.cell cx cy ^^ spritePixel px py rows cx cy) := by
  simp [Display.cell_plotAll _ _ (Display.pixels_nodup px py 0 rows h), mem_pixels_iff_spritePixel h]

/-- Drawing a sprite of at most 32 rows reports a hit exactly when a cell under a set bit of it was set. -/
theorem hit_plotAll_pixels {rows : List Byte} (h : rows.length ≤ 32) (d : Display) (px py : Nat) :
    (Display.plotAll (d, false) (Display.pixels px py 0 rows)).2 = true ↔
      ∃ cx cy, spritePixel px py rows cx cy = true ∧ d.cell cx cy = true := by
  simp [Display.hit_plotAll _ _ (Display.pixels_nodup px py 0 rows h), mem_pixels_iff_spritePixel h]

/-- Settles O47: DRW plots the sprite's pixels, which are distinct, and writes the hit flag to VF last. -/
theorem drawXorsTheSprite : Obligations.DrawXorsTheSprite := by
  intro x y n s hn on
  have hrows := spriteRows_length_le s hn
  refine ⟨_, execDrw_eq x y n s, fun cx cy => ?cells, ?flag, fun r hr => State.reg_setReg_ne _ _ hr, rfl⟩
  case cells => exact cell_plotAll_pixels hrows s.disp _ _ cx cy
  case flag => exact (State.reg_setReg_same _ _ _).trans (flagByte_eq_ite (hit_plotAll_pixels hrows s.disp _ _))

/-! ### A draw repeated -/

/-- Settles O48: the second draw has the sprite of the first, so it flips every cell back, and it meets a set cell where
the first met a clear one. -/
theorem drawTwiceRestoresTheDisplay : Obligations.DrawTwiceRestoresTheDisplay := by
  intro x y n s t hn ht hx hy on
  obtain ⟨t', ht', hcell, hflag, -, hframe⟩ := drawXorsTheSprite x y n s hn
  obtain rfl : t' = t := Host.Outcome.next.inj (ht'.symm.trans ht)
  obtain ⟨u, hu, hcell', hflag', -, -⟩ := drawXorsTheSprite x y n t' hn
  have hrows : spriteRows t' n = spriteRows s n := by rw [hframe]; rfl
  simp only [hx, hy, hrows, hcell] at hcell' hflag'
  have hmet (cx cy) : (on cx cy = true ∧ (s.disp.cell cx cy ^^ on cx cy) = true) ↔
      (on cx cy = true ∧ s.disp.cell cx cy = false) := by
    refine and_congr_right fun hon => ?_
    rw [hon, Bool.xor_true, Bool.not_eq_true']
  have hvf : u.reg .VF = if ∃ cx cy, on cx cy = true ∧ s.disp.cell cx cy = false then 1 else 0 :=
    hflag'.trans (if_congr (exists_congr fun cx => exists_congr (hmet cx)) rfl rfl)
  refine ⟨u, hu, Display.ext_cell fun cx cy => ?restored, hvf, fun h0 => ?clear⟩
  case restored => rw [hcell', Bool.xor_assoc, Bool.xor_self, Bool.xor_false]
  case clear =>
    have hne : (1 : Byte) ≠ 0 := by decide
    have hnone : ¬∃ cx cy, on cx cy = true ∧ s.disp.cell cx cy = true :=
      hne.ite_eq_right_iff.mp (hflag.symm.trans h0)
    have hclear (cx cy) (hon : on cx cy = true) : s.disp.cell cx cy = false :=
      Bool.eq_false_iff.mpr fun hset => hnone ⟨cx, cy, hon, hset⟩
    rw [hvf, hne.ite_eq_left_iff, ← exists_spritePixel_iff (spriteRows_length_le s hn)]
    exact exists_congr fun cx => exists_congr fun cy => and_iff_left_of_imp (hclear cx cy)

end Sys2Proof.Machine

/-! PROOFS. Key input and the timer registers: the key skips, the wait for a key, and the transfers between a register
and a timer (44_input_timer.md). -/

namespace Sys2Proof.Machine

/-- A register write changes that register alone. -/
theorem onlyReg_setReg (x : Reg) (b : Byte) (s : State) : OnlyReg x s (s.setReg x b) :=
  ⟨fun _ hr => State.reg_setReg_ne s b hr, rfl⟩

/-! ### Keys -/

/-- The scan finds the lowest pressed key: one below it is not pressed, and it is itself not passed over. -/
theorem firstPressed_eq_some {key : Keys} {k : Fin 16} (hk : key[k] = true) (hlow : ∀ j : Fin 16, j < k → key[j] = false) :
    firstPressed key = some k.val := by
  cases hj : firstPressed key with
  | none => exact absurd hk (Bool.eq_false_iff.mp (firstPressed_none hj k))
  | some j =>
    obtain ⟨hlt, hpressed, hbelow⟩ := firstPressed_some hj
    have hkj : ¬ k.val < j := fun h => absurd hk (Bool.eq_false_iff.mp (hbelow k h))
    have hjk : ¬ j < k.val := fun h => absurd hpressed (Bool.eq_false_iff.mp (hlow ⟨j, hlt⟩ h))
    rw [Nat.le_antisymm (Nat.not_lt.mp hkj) (Nat.not_lt.mp hjk)]

/-- Settles O50: the scan finds the lowest pressed key, whose number fits a byte, or none; PC - 2 reduces mod 4096 as
PC + 4094 does. -/
theorem keyWait : Obligations.KeyWait := by
  intro x s
  refine ⟨fun k hk hlow => ?taken, fun hnone => ?awaited⟩
  case taken =>
    refine ⟨_, execLdVxK_some x s (firstPressed_eq_some hk hlow), ?_, onlyReg_setReg x _ s⟩
    rw [State.reg_setReg_same, BitVec.toNat_ofNat]
    exact Nat.mod_eq_of_lt (by omega)
  case awaited =>
    have hback : (s.pc - 2).toNat % 4096 = (s.pc.toNat + 4094) % 4096 :=
      (State.wrap12_toNat _).symm.trans s.instrAddr_toNat
    exact (execLdVxK_none x s (firstPressed_eq_none hnone)).trans
      (congrArg Host.Outcome.next (setPc_eq_ofNat s hback))

/-- Settles O33: each key skip is `skipIf` of the flag of the key that the low nibble numbers. -/
theorem keySkips : Obligations.KeySkips := by
  intro x s k hk
  obtain rfl : k = lowNibble (s.reg x) := Fin.ext (hk.trans (lowNibble_val _).symm)
  exact ⟨congrArg Host.Outcome.next (skipIf_of_iff s Iff.rfl),
    congrArg Host.Outcome.next (skipIf_of_iff s (Bool.not_eq_true' _).to_iff)⟩

/-! ### Timers -/

/-- Settles O49: FX07 is one register write, FX15 and FX18 an update of the one field. -/
theorem timerTransfers : Obligations.TimerTransfers := by
  intro x s
  exact ⟨⟨_, rfl, State.reg_setReg_same s x s.dt, onlyReg_setReg x s.dt s⟩, rfl, rfl⟩

end Sys2Proof.Machine

/-! PROOFS. Faults and host operations: the state each fault leaves behind, the timers along a run, and the ticks and key
updates that pass an instruction (60_exceptions.md). -/

namespace Sys2Proof.Machine

/-! ### The faults a Step takes before it performs an instruction -/

/-- Settles O7: the Unknown word is latched and `raise` leaves PC at it. -/
theorem stepOnUnknownWordFaults : Obligations.StepOnUnknownWordFaults := by
  intro p s op e hf hpc hr hd
  exact cycle_unknown hf (odd_check_false hpc) hr hd

/-- Settles O8: the odd check comes before the fetch, so nothing is latched. -/
theorem stepAtOddPcFaults : Obligations.StepAtOddPcFaults := by
  intro s hf hodd
  have hcheck : (isOdd s.pc && Config.OddPcFetch.fault == .fault) = true := by
    rw [(isOdd_iff s.pc).mpr hodd]
    rfl
  exact cycle_odd hf hcheck

/-- Settles O9: a faulted cycle answers before it looks at the policy or the byte. -/
theorem faultedStepAnswersItsFault : Obligations.FaultedStepAnswersItsFault :=
  fun _ _ _ _ hf => ⟨cycle_faulted hf, cycle_faulted hf⟩

/-! ### The stack faults -/

/-- Settles O29: the instruction's own address is two below PC, mod 4096. -/
theorem stackBoundsFault : Obligations.StackBoundsFault := by
  intro nnn s a ha hpc
  have haddr : s.instrAddr = a := BitVec.eq_of_toNat_eq (by rw [State.instrAddr_toNat]; omega)
  subst haddr
  exact ⟨fun h => execCall_full nnn s (Fin.ext h), fun h => execRet_empty s (Fin.ext h)⟩

/-- Settles O30: CALL pushes below 16 entries and RET pops above none, both leaving FAULT alone. -/
theorem stackFaultsExactlyAtTheBounds : Obligations.StackFaultsExactlyAtTheBounds := by
  intro nnn s hf
  constructor
  · by_cases h : s.sp.val = 16
    · exact ⟨_, execCall_full nnn s (Fin.ext h), ⟨fun _ => h, fun _ => ⟨_, _, rfl⟩⟩, fun _ => ⟨rfl, rfl⟩,
        fun hne => absurd h hne⟩
    · have hlt : s.sp.val < 16 := by omega
      refine ⟨_, execCall_of_lt nnn s hlt, ?_, fun h16 => absurd h16 h, fun _ => hf⟩
      simp [hf, h]
  · by_cases h : s.sp.val = 0
    · exact ⟨_, execRet_empty s (Fin.ext h), ⟨fun _ => h, fun _ => ⟨_, _, rfl⟩⟩, fun _ => ⟨rfl, rfl⟩,
        fun hne => absurd h hne⟩
    · refine ⟨_, execRet_of_pos s (Nat.pos_of_ne_zero h), ?_, fun h0 => absurd h0 h, fun _ => hf⟩
      simp [hf, h]

/-! ### The fault record of any Step -/

/-- Settles O11: the operation is a Step, whose faults fit, or one that leaves FAULT and what it names alone. -/
theorem everyOperationKeepsTheFaultRecordFitting : Obligations.EveryOperationKeepsTheFaultRecordFitting := by
  intro p s o hs hf
  exact applyOp_keeps_faultFits o hs.1 hf

/-- Settles O12: a record of AddressOutOfRange never fits, and the record of a Step's fault does. -/
theorem addressOutOfRangeIsCheckedAndNeverReached : Obligations.AddressOutOfRangeIsCheckedAndNeverReached := by
  refine ⟨fun p s t hs h a op pc hfault => ?_, fun m a b ha => ⟨Memory.memRead_ge ha, Memory.memWrite_ge ha⟩⟩
  have hfits := cycle_faultFits exec_effect hs.1 h
  rw [State.faultFits, hfault] at hfits
  cases hfits

/-- A fault raised by an instruction undoes the PC advance: only the latched word and the record remain (R246). -/
theorem raise_fetched {s : State} (op : Word) (f : Option Fault) (h : s.pc.toNat < 4096) :
    { s.fetched op with pc := (s.fetched op).instrAddr, fault := f } = { s with opcode := op, fault := f } := by
  rw [State.instrAddr_fetched s op h]
  rfl

/-- Settles O10: the cycle's own faults change nothing but FAULT and OPCODE, and those of RET and CALL put PC back. -/
theorem faultsArePrecise : Obligations.FaultsArePrecise := by
  intro p s t f hs h hft
  obtain ⟨hf, ⟨-, rfl⟩ | ⟨-, a, hr, -⟩ | ⟨-, op, e, hr, -, rfl⟩ | ⟨-, op, i, hr, -, hi⟩⟩ := cycle_cases h
  · cases hft
    exact ⟨rfl, (if_pos rfl).mpr rfl⟩
  · rw [Memory.fetch16_eq hs.1] at hr
    cases hr
  · cases hft
    exact ⟨rfl, by simpa using hr⟩
  · obtain hkept | ⟨-, -, rfl⟩ | ⟨-, -, rfl⟩ := (exec_effect hi).fault_cases
    · rw [hkept, State.fetched_fault, hf] at hft
      cases hft
    · cases hft
      exact ⟨raise_fetched op _ hs.1, by simpa using hr⟩
    · cases hft
      exact ⟨raise_fetched op _ hs.1, by simpa using hr⟩

/-! ### The timers along a Step and along a run -/

/-- An instruction leaves DT and ST alone, but for FX15 and FX18. -/
theorem InstrEffect.timer_cases {i : Instr} {s t : State} (he : InstrEffect i s t) :
    (t.dt = s.dt ∨ ∃ x, i = .ldDtVx x ∧ t.dt = s.reg x) ∧ (t.st = s.st ∨ ∃ x, i = .ldStVx x ∧ t.st = s.reg x) := by
  cases he with
  | delay x hi => exact ⟨.inr ⟨x, hi, rfl⟩, .inl rfl⟩
  | sound x hi => exact ⟨.inl rfl, .inr ⟨x, hi, rfl⟩⟩
  | skip => exact ⟨.inl (State.skipIf_dt _ _), .inl (State.skipIf_st _ _)⟩
  | reg | regFlag | random | load | keyTaken | keyAwaited | jump | jumpV0 | call | callFull | ret | retEmpty | index
  | store | clear | sprite => exact ⟨.inl rfl, .inl rfl⟩

/-- A Step leaves DT and ST alone, but where it performs FX15 or FX18 (R265). -/
theorem cycle_timer_cases {p : Config.OddPcFetch} {run : Instr → State → Result}
    (hrun : ∀ {i s t}, run i s = .next t → InstrEffect i s t) {s t : State} (h : cycle p run s = .next t) :
    (t.dt = s.dt ∨ ∃ x, nextInstr p s = some (.ldDtVx x) ∧ t.dt = s.reg x) ∧
    (t.st = s.st ∨ ∃ x, nextInstr p s = some (.ldStVx x) ∧ t.st = s.reg x) := by
  obtain ⟨hf, ⟨-, rfl⟩ | ⟨-, a, -, rfl⟩ | ⟨-, op, e, -, -, rfl⟩ | ⟨ho, op, i, hr, hd, hi⟩⟩ := cycle_cases h
  · exact ⟨.inl rfl, .inl rfl⟩
  · exact ⟨.inl rfl, .inl rfl⟩
  · exact ⟨.inl rfl, .inl rfl⟩
  · rw [nextInstr_of_decode hf ho hr hd]
    simpa using (hrun hi).timer_cases

/-- Settles O20: the instruction performed is the only one that could load a timer. -/
theorem stepNeverCountsTimersDown : Obligations.StepNeverCountsTimersDown :=
  fun _ _ _ h => cycle_timer_cases exec_effect h

/-- The same of a Step of a run, which may also stand still. -/
theorem applyOp_step_timer_cases {p : Config.OddPcFetch} {s : State} (r : Byte) :
    ((applyOp p s (.step r)).dt = s.dt ∨ ∃ x, nextInstr p s = some (.ldDtVx x)) ∧
    ((applyOp p s (.step r)).st = s.st ∨ ∃ x, nextInstr p s = some (.ldStVx x)) := by
  rcases stateAfter_cases s (stepDrawing p r s) with hstill | hnext
  · rw [applyOp, hstill]
    exact ⟨.inl rfl, .inl rfl⟩
  · obtain ⟨hdt, hst⟩ := cycle_timer_cases execDrawing_effect hnext
    exact ⟨hdt.imp_right fun ⟨x, hi, _⟩ => ⟨x, hi⟩, hst.imp_right fun ⟨x, hi, _⟩ => ⟨x, hi⟩⟩

/-- A timer that each tick counts down, and that no key update and no Step but of its own loading instruction writes,
falls by the number of ticks over a run without that instruction (R262). -/
theorem timer_runOps {p : Config.OddPcFetch} {timer : State → Byte} {load : Reg → Instr} {bad : Instr → Bool}
    (hbad : ∀ x, bad (load x) = true) (htick : ∀ s, timer (tick60 s) = countDown (timer s))
    (hkeys : ∀ k s, timer (setKeys k s) = timer s)
    (hstep : ∀ {s} r, timer (applyOp p s (.step r)) = timer s ∨ ∃ x, nextInstr p s = some (load x))
    {s : State} {ops : List HostOp} (h : runAvoids p bad s ops = true) :
    (timer (runOps p s ops)).toNat = (timer s).toNat - tickCount ops := by
  induction ops generalizing s with
  | nil => rfl
  | cons o ops ih =>
    cases o with
    | step r =>
      rw [runAvoids, Bool.and_eq_true, Bool.not_eq_true'] at h
      obtain ⟨havoid, hrest⟩ := h
      have hkept : timer (applyOp p s (.step r)) = timer s := by
        refine (hstep r).resolve_right fun ⟨x, hi⟩ => ?_
        rw [hi, Option.any_some, hbad x] at havoid
        cases havoid
      rw [runOps, ih hrest, hkept, tickCount]
    | tick60 =>
      have hticked : timer (applyOp p s .tick60) = countDown (timer s) := htick s
      rw [runOps, ih h, hticked, State.countDown_toNat, tickCount]
      omega
    | setKeys k =>
      have hkept : timer (applyOp p s (.setKeys k)) = timer s := hkeys k s
      rw [runOps, ih h, hkept, tickCount]

/-- Settles O53: each timer is counted down by the ticks, and by nothing else where no Step loads it. -/
theorem timersFallWithTicksAlone : Obligations.TimersFallWithTicksAlone :=
  fun _ _ _ =>
    ⟨timer_runOps (fun _ => rfl) State.tick60_dt State.setKeys_dt fun r => (applyOp_step_timer_cases r).1,
      timer_runOps (fun _ => rfl) State.tick60_st State.setKeys_st fun r => (applyOp_step_timer_cases r).2⟩

/-! ### Host operations that pass an instruction -/

/-- The state with its timers and keys changed, which is all that Tick60 and SetKeys do. -/
def State.mapInputs (d e : Byte → Byte) (g : Keys → Keys) (s : State) : State :=
  { s with dt := d s.dt, st := e s.st, key := g s.key }

theorem tick60_eq_mapInputs : tick60 = State.mapInputs countDown countDown id := rfl

theorem setKeys_eq_mapInputs (k : Keys) : setKeys k = State.mapInputs id id (fun _ => k) := rfl

section Inputs

variable {d e : Byte → Byte} {g : Keys → Keys} (s : State)

theorem skipIf_mapInputs (c : Bool) : (s.mapInputs d e g).skipIf c = (s.skipIf c).mapInputs d e g := by
  cases c <;> rfl

/-- RET reads neither timers nor keys, whether it pops or faults. -/
theorem execRet_mapInputs : execRet (s.mapInputs d e g) = mapNext (State.mapInputs d e g) (execRet s) := by
  by_cases h : 0 < s.sp.val
  · rw [execRet_of_pos s h, execRet_of_pos (s.mapInputs d e g) h]
    rfl
  · have h0 : s.sp = 0 := Fin.ext (Nat.eq_zero_of_not_pos h)
    rw [execRet_empty s h0, execRet_empty (s.mapInputs d e g) h0]
    rfl

/-- CALL reads neither timers nor keys, whether it pushes or faults. -/
theorem execCall_mapInputs (nnn : Addr12) :
    execCall nnn (s.mapInputs d e g) = mapNext (State.mapInputs d e g) (execCall nnn s) := by
  by_cases h : s.sp.val < 16
  · rw [execCall_of_lt nnn s h, execCall_of_lt nnn (s.mapInputs d e g) h]
    rfl
  · have h16 : s.sp = 16 := Fin.ext (Nat.le_antisymm (Nat.le_of_lt_succ s.sp.isLt) (Nat.not_lt.mp h))
    rw [execCall_full nnn s h16, execCall_full nnn (s.mapInputs d e g) h16]
    rfl

/-- The key wait reads no timer. -/
theorem execLdVxK_mapInputs (x : Reg) :
    execLdVxK x (s.mapInputs d e id) = mapNext (State.mapInputs d e id) (execLdVxK x s) := by
  cases h : firstPressed s.key with
  | none =>
    rw [execLdVxK_none x s h, execLdVxK_none x (s.mapInputs d e id) h]
    rfl
  | some k =>
    rw [execLdVxK_some x s h, execLdVxK_some x (s.mapInputs d e id) h]
    rfl

/-- A change of timers and keys passes every instruction that does not touch what it changes. -/
theorem exec_mapInputs {i : Instr}
    (htimers : (∀ x, i ≠ .ldVxDt x ∧ i ≠ .ldDtVx x ∧ i ≠ .ldStVx x) ∨ d = id ∧ e = id)
    (hkeys : (∀ x, i ≠ .skp x ∧ i ≠ .sknp x ∧ i ≠ .ldVxK x) ∨ g = id) :
    exec i (s.mapInputs d e g) = mapNext (State.mapInputs d e g) (exec i s) := by
  cases i
  case ret => exact execRet_mapInputs s
  case call nnn => exact execCall_mapInputs s nnn
  case seImm | sneImm | seReg | sneReg => exact congrArg Host.Outcome.next (skipIf_mapInputs s _)
  case drw x y n => rw [exec, exec, execDrw_eq, execDrw_eq]; rfl
  case ldBVx x => rw [exec, exec, execLdBVx, execLdBVx, storeAtI_eq, storeAtI_eq]; rfl
  case ldMiVx x => rw [exec, exec, execLdMiVx, execLdMiVx, storeAtI_eq, storeAtI_eq]; rfl
  case ldVxMi x => rw [exec, exec, execLdVxMi_eq, execLdVxMi_eq]; rfl
  case ldVxDt x | ldDtVx x | ldStVx x =>
    obtain hne | ⟨rfl, rfl⟩ := htimers
    · simp at hne
    · rfl
  case skp x | sknp x =>
    obtain hne | rfl := hkeys
    · simp at hne
    · exact congrArg Host.Outcome.next (skipIf_mapInputs s _)
  case ldVxK x =>
    obtain hne | rfl := hkeys
    · simp at hne
    · exact execLdVxK_mapInputs s x
  all_goals rfl

end Inputs

/-- Settles O54: a tick leaves the keys as they are, a key update the timers. -/
theorem ticksAndKeysCommuteWithOtherInstructions : Obligations.TicksAndKeysCommuteWithOtherInstructions := by
  intro i s k
  rw [tick60_eq_mapInputs, setKeys_eq_mapInputs]
  exact ⟨fun h => exec_mapInputs s (.inl h) (.inr rfl), fun h => exec_mapInputs s (.inr ⟨rfl, rfl⟩) (.inl h)⟩

/-- Settles O52: each timer is `countDown`, and no other field is written. -/
theorem tick60CountsBothTimersDown : Obligations.Tick60CountsBothTimersDown :=
  fun s => ⟨State.countDown_toNat s.dt, State.countDown_toNat s.st, rfl⟩

/-! ### Construct -/

/-- An image that does not fit gives its length and no state. -/
theorem construct_of_length_gt {image : List Byte} (font : Font) (h : image.length > 3584) :
    construct image font = .error (.imageTooLarge image.length) := if_pos h

/-- Settles O56: an image that fits gives a state, a longer one the fault with its length. -/
theorem constructRejectsOnlyLargeImages : Obligations.ConstructRejectsOnlyLargeImages := by
  intro image font f
  by_cases h : image.length ≤ 3584
  · rw [construct_of_length_le font h]
    simp [h]
  · rw [construct_of_length_gt font (Nat.not_le.mp h)]
    simp [Nat.not_le.mp h, eq_comm]

end Sys2Proof.Machine

/-! PROOFS. The reset state is the empty construct, and its first Step (70_reset_and_hazards.md R280, R281). -/

namespace Sys2Proof.Machine

namespace Memory

/-- Bytes that are what their addresses read as anyway add no cell to the empty memory. -/
theorem layBytes_nil_of_unlisted {base : Nat} {bs : List Byte}
    (h : ∀ j (hj : j < bs.length), bs[j] = unlisted (base + j)) : layBytes [] base bs = [] := by
  induction bs generalizing base with
  | nil => rfl
  | cons b bs ih =>
    have hb : setByte [] base b = [] := if_pos (h 0 (Nat.zero_lt_succ _))
    rw [layBytes, hb]
    refine ih fun j hj => ?_
    rw [Nat.add_right_comm]
    exact h (j + 1) (Nat.succ_lt_succ hj)

/-- The default font is what the cells below 80 read as unlisted (decision D22). -/
theorem layBytes_defaultFont : layBytes [] Config.fontBase defaultFont.toList = [] := by
  refine layBytes_nil_of_unlisted fun j hj => ?_
  have hj80 : j < 80 := by simpa using hj
  rw [Config.fontBase, Nat.zero_add, unlisted, dif_pos hj80, Vector.getElem_toList]

/-- Two neighbouring cells above the font of the empty memory fetch as the word 0x0000. -/
theorem fetch16_nil {a : Word} (h : 80 ≤ a.toNat) (h' : a.toNat < 4095) : fetch16 [] a = .ok 0x0000#16 := by
  have hnext : (a.toNat + 1) % 4096 = a.toNat + 1 := Nat.mod_eq_of_lt (by omega)
  rw [fetch16_eq (by omega), hnext, byteAt, byteAt, unlisted_ge h, unlisted_ge (by omega)]
  rfl

end Memory

/-- The empty image is accepted (decision D29) and the default font lists no cell, so this is the reset state (log 7). -/
theorem construct_nil_defaultFont : construct [] defaultFont = .ok State.reset := by
  rw [construct_of_length_le defaultFont (Nat.zero_le _), Memory.layBytes_defaultFont]
  rfl

/-- Beyond the font memory reads 0x00 (decision D21), so the first Step after reset fetches 0x0000, which is Unknown (R281). -/
theorem step_reset :
    step State.reset = .next { State.reset with fault := some (.unknownOpcode 0x0000#16 0x200#16) } := by
  have hfetch : State.reset.mem.fetch16 State.reset.pc = .ok 0x0000#16 :=
    Memory.fetch16_nil (a := 0x200#16) (by decide) (by decide)
  exact stepOnUnknownWordFaults defaultOddPcFetch State.reset 0x0000#16 _ rfl (.inl rfl) hfetch rfl

/-- Settles O57: the default font and no image leave the reset memory, in which the word at 0x200 is Unknown. -/
theorem resetIsTheEmptyConstruct : Obligations.ResetIsTheEmptyConstruct :=
  ⟨construct_nil_defaultFont, step_reset⟩

end Sys2Proof.Machine
